-- ==== Sys2Proof/Word.lean ====
section
/-! DEFINITION. The two word types of the hardware: 8-bit data and 16-bit addresses (00_scope.md R8). -/

namespace Sys2Proof

/-- DATA_WIDTH = 8: a register, a memory cell, a byte on the Bus (00_scope.md R8). -/
abbrev Byte := BitVec 8

/-- ADDR_WIDTH = 16: an address and the program counter (00_scope.md R8; 20_memory.md R40). -/
abbrev Addr := BitVec 16

end Sys2Proof
end

