-- ==== Sys2Proof/Machine/Flags.lean ====
section
/-! DEFINITION. The status byte's flags and every flag computation of the spec, on plain bytes (10_state.md R25 to
R30; 41_adc_and.md R121, R122; 42_asl.md R130; 45_bit_cmp_brk.md R170, R171). -/

namespace Sys2Proof.Machine

/-- The seven named flags (10_state.md R25). -/
inductive Flag where
  | c | z | i | d | b | v | n
  deriving DecidableEq, Repr

/-- The bit of `p` that holds a flag: this hardware's own layout, not the NMOS 6502's (10_state.md R25). -/
def Flag.bit : Flag → Nat
  | .c => 0
  | .z => 1
  | .i => 2
  | .d => 3
  | .b => 4
  | .v => 5
  | .n => 6

/-- The byte with a flag's bit alone set. -/
def Flag.mask (f : Flag) : Byte :=
  1 <<< f.bit

/-- A flag of a status byte. -/
def flagOf (p : Byte) (f : Flag) : Bool :=
  p.getLsbD f.bit

/-- A status byte with one flag written and every other bit kept (10_state.md R26). -/
def withFlag (p : Byte) (f : Flag) (v : Bool) : Byte :=
  if v then p ||| f.mask else p &&& ~~~f.mask

/-- "Zero flag = result byte equals 0" (10_state.md R28). -/
def zeroFlag (r : Byte) : Bool :=
  decide (r = 0)

/-- "Negative flag = bit 7 of result byte is set" (10_state.md R29). -/
def negativeFlag (r : Byte) : Bool :=
  r.getLsbD 7

/-- The Zero and Negative rules together: a status byte with Z and N written from a result (10_state.md R30). -/
def withZN (p r : Byte) : Byte :=
  withFlag (withFlag p .z (zeroFlag r)) .n (negativeFlag r)

/-- The sum of ADC on integers, 0 to 511 (41_adc_and.md R120, R121). -/
def adcSum (a v : Byte) (c : Bool) : Nat :=
  a.toNat + v.toNat + c.toNat

/-- The result byte of ADC, the sum mod 256 (41_adc_and.md R120). Binary whatever D holds (R123). -/
def adcResult (a v : Byte) (c : Bool) : Byte :=
  BitVec.ofNat 8 (adcSum a v c)

/-- Carry of ADC: the sum exceeds 255 (41_adc_and.md R121). -/
def adcCarry (a v : Byte) (c : Bool) : Bool :=
  decide (255 < adcSum a v c)

/-- Overflow of ADC: bit 7 of `(a ^ r) & (value ^ r)`, `a` the accumulator before (41_adc_and.md R122). -/
def adcOverflow (a v : Byte) (c : Bool) : Bool :=
  ((a ^^^ adcResult a v c) &&& (v ^^^ adcResult a v c)).getLsbD 7

/-- The status byte after ADC: C, V, Z, N written (41_adc_and.md R120). -/
def adcStatus (p a v : Byte) : Byte :=
  withZN (withFlag (withFlag p .c (adcCarry a v (flagOf p .c))) .v (adcOverflow a v (flagOf p .c)))
    (adcResult a v (flagOf p .c))

/-- The result byte of ASL: the operand doubled, mod 256 (42_asl.md R130, R131). -/
def aslResult (v : Byte) : Byte :=
  BitVec.ofNat 8 (v.toNat * 2)

/-- The status byte after ASL: C the bit shifted out, Z and N from the result (42_asl.md R130, R131). -/
def aslStatus (p v : Byte) : Byte :=
  withZN (withFlag p .c (v.getLsbD 7)) (aslResult v)

/-- The status byte after CMP: C the unsigned comparison, Z and N from the difference mod 256
(45_bit_cmp_brk.md R171). -/
def cmpStatus (p a m : Byte) : Byte :=
  withZN (withFlag p .c (decide (m.toNat ≤ a.toNat))) (a - m)

/-- The status byte after BIT: Z from `a & m`, N and V the operand's bits 7 and 6 (45_bit_cmp_brk.md R170). -/
def bitStatus (p a m : Byte) : Byte :=
  withFlag (withFlag (withFlag p .z (zeroFlag (a &&& m))) .n (m.getLsbD 7)) .v (m.getLsbD 6)

end Sys2Proof.Machine
end

