-- ==== Sys2Proof/Config.lean ====
section
/-! DEFINITION. The implementation parameters of 00_scope.md R8 that the default machine fixes, and the one
uninterpreted value of the hardware (the base cycle counts). DEVICES and RESET_STATE are data of `State`: a
statement over every state is a statement over every value of these parameters. -/

namespace Sys2Proof.Config

/-- MEM_BASE of the default Memory Device (20_memory.md R47). -/
def memBase : Nat := 0x0000

/-- MEM_SIZE of the default Memory Device: 0x7FFF, not 0x8000 (20_memory.md R43, R47). -/
def memSize : Nat := 0x7FFF

/-- What a cell that no entry lists reads as. DESIGN CHOICE (log entry 1, unsafe): MEM_INIT is "any bytes"
(20_memory.md R64), and D3 lets an executable model pick 0x00. -/
def unlistedByte : Byte := 0x00

/-- The base cycle count of an opcode-table record: a number that no rule uses and of which the source gives no
value (30_encoding.md R71; 70_reset_and_hazards.md R217). A FREE VALUE: no body, so nothing can evaluate it.
DESIGN CHOICE (log entry 5, safe). -/
opaque baseCycles : Byte → Nat

end Sys2Proof.Config
end

