-- ==== Sys2Proof/Syntax.lean ====
section
/-! DEFINITION. The instruction set as syntax: the 18 mnemonics (00_scope.md R2), the addressing modes
(30_encoding.md R74), the record an opcode-table slot holds (R71), and `Instr`, one constructor for each of the 44
populated slots (R81) with its operand bytes (R75). -/

namespace Sys2Proof

/-- The instruction kinds: the 18 mnemonics (00_scope.md R2). -/
inductive Mnemonic where
  | adc | and | asl
  | bcc | bcs | beq | bmi | bne | bpl | bvc | bvs
  | clc | cld | cli | clv
  | bit | cmp | brk
  deriving DecidableEq, Repr

/-- Which register an indexed mode adds (30_encoding.md R74; 40_pipeline_and_addressing.md R100). -/
inductive Index where
  | none | x | y
  deriving DecidableEq, Repr

/-- The addressing modes, the whole tagged variant: `ZeroPage` with Y and `Indirect` with no index are forms no slot
uses (30_encoding.md R74). -/
inductive Mode where
  | accumulator
  | immediate
  | zeroPage (i : Index)
  | absolute (i : Index)
  | indirect (i : Index)
  | relative
  | implied
  deriving DecidableEq, Repr

/-- The record of a populated opcode-table slot (30_encoding.md R71). -/
structure OperationCode where
  kind : Mnemonic
  mode : Mode
  length : Nat
  cycles : Nat
  deriving DecidableEq, Repr

/-- One constructor per populated slot of the opcode table (30_encoding.md R81). An operand is what the bytes after
the opcode hold (R75): `imm` the immediate byte (R77), `zp` the zero-page byte (R78), `base` the 16-bit address with
its low byte first in memory (R79), `off` the branch offset byte (R80). The `zp` byte of an Indirect form is never
used (40_pipeline_and_addressing.md R99; log entry 3). -/
inductive Instr where
  -- ADC (41_adc_and.md R120)
  | adcImm (imm : Byte)
  | adcZp (zp : Byte)
  | adcZpX (zp : Byte)
  | adcAbs (base : Addr)
  | adcAbsX (base : Addr)
  | adcAbsY (base : Addr)
  | adcIndX (zp : Byte)
  | adcIndY (zp : Byte)
  -- AND (41_adc_and.md R125)
  | andImm (imm : Byte)
  | andZp (zp : Byte)
  | andZpX (zp : Byte)
  | andAbs (base : Addr)
  | andAbsX (base : Addr)
  | andAbsY (base : Addr)
  | andIndX (zp : Byte)
  | andIndY (zp : Byte)
  -- CMP (45_bit_cmp_brk.md R171)
  | cmpImm (imm : Byte)
  | cmpZp (zp : Byte)
  | cmpZpX (zp : Byte)
  | cmpAbs (base : Addr)
  | cmpAbsX (base : Addr)
  | cmpAbsY (base : Addr)
  | cmpIndX (zp : Byte)
  | cmpIndY (zp : Byte)
  -- ASL (42_asl.md R130, R131)
  | aslAcc
  | aslZp (zp : Byte)
  | aslZpX (zp : Byte)
  | aslAbs (base : Addr)
  | aslAbsX (base : Addr)
  -- BIT (45_bit_cmp_brk.md R170)
  | bitZp (zp : Byte)
  | bitAbs (base : Addr)
  -- the eight branches (43_branches.md R141 to R148)
  | bcc (off : Byte)
  | bcs (off : Byte)
  | beq (off : Byte)
  | bmi (off : Byte)
  | bne (off : Byte)
  | bpl (off : Byte)
  | bvc (off : Byte)
  | bvs (off : Byte)
  -- the four flag clears (44_flag_clear.md R160 to R163)
  | clc
  | cld
  | cli
  | clv
  -- BRK (45_bit_cmp_brk.md R172)
  | brk
  deriving DecidableEq, Repr

end Sys2Proof
end

