-- ==== Sys2Proof/Machine/State.lean ====
section
/-! DEFINITION. The machine's state as plain data, holding every piece of state the spec gives it (10_state.md R20,
R25, R32; 20_memory.md R43, R49), the reasons a step can stop (60_exceptions.md R180), and the state after reset
(10_state.md R35; 70_reset_and_hazards.md R210). -/

namespace Sys2Proof.Machine

/-- The faults (60_exceptions.md R180). All are SAFE: the spec's machine stops there too, for ever (R186). -/
inductive Fault where
  /-- Raised by decode: the opcode slot of `byte`, fetched from `addr`, is empty (60_exceptions.md R181). Safe. -/
  | unknownOpcode (addr : Addr) (byte : Byte)
  /-- Raised at resolve: the opcode `byte` at `addr` has an Indirect mode (60_exceptions.md R182). Safe. -/
  | unsupportedAddressingMode (addr : Addr) (byte : Byte) (mode : Mode)
  /-- Raised by BRK at `addr` (60_exceptions.md R183; 45_bit_cmp_brk.md R172). Safe. -/
  | unsupportedInstruction (addr : Addr) (byte : Byte)
  /-- Raised by any Bus read of an address no device maps (60_exceptions.md R184; 20_memory.md R52). Safe. -/
  | unmappedRead (addr : Addr)
  deriving DecidableEq, Repr

/-- The refusals. -/
inductive Refusal where
  /-- An instruction that has no meaning yet; raised by `exec` alone. Safe. No arm of `exec` raises it. -/
  | notModelled (mnemonic : String)
  deriving DecidableEq, Repr

/-- The machine status: running, or halted for ever by a fault (10_state.md R32; 60_exceptions.md R186). -/
inductive Status where
  | running
  | halted (f : Fault)
  deriving DecidableEq, Repr

/-- A record of the report log (10_state.md R32; 20_memory.md R51). -/
inductive Report where
  | unroutedWrite (addr : Addr) (data : Byte)
  deriving DecidableEq, Repr

/-- Byte cells by index, in one canonical form (`Memory.wf` of Machine/Ops.lean): indexes strictly rising, no entry
equal to what an unlisted cell reads as. -/
abbrev Memory := List Host.Cell

/-- A Memory Device: its base address, its capacity in bytes and its cells, listed by cell index
`address - base` (20_memory.md R43, R44, R45). -/
structure Device where
  base : Nat
  size : Nat
  cells : Memory
  deriving DecidableEq, Repr

/-- The register file as one value: what `dump_registers` shows and what RESET_STATE is (10_state.md R20;
60_exceptions.md R195). -/
structure Registers where
  pc : Addr
  sp : Byte
  a : Byte
  x : Byte
  y : Byte
  p : Byte
  deriving DecidableEq, Repr

/-- The machine. Registers: 10_state.md R20. `p` is the status byte with C, Z, I, D, B, V, N at bits 0 to 6 (R25).
`status` and `reports`: R32. `devices`: the Bus's ordered device list (20_memory.md R49). -/
structure State where
  pc : Addr
  sp : Byte
  a : Byte
  x : Byte
  y : Byte
  p : Byte
  status : Status
  reports : List Report
  devices : List Device
  deriving DecidableEq, Repr

/-- The register values at construction (10_state.md R35), the default of RESET_STATE. UNVERIFIED (log entry 8,
unsafe): the numbers are the spec's own decision D2. -/
def Registers.reset : Registers :=
  { pc := 0x0000, sp := 0x00, a := 0x00, x := 0x00, y := 0x00, p := 0x00 }

/-- The default device configuration: one Memory Device at 0x0000 with 0x7FFF cells (20_memory.md R47), no cell
listed (log entry 1). -/
def defaultDevices : List Device :=
  [{ base := Config.memBase, size := Config.memSize, cells := [] }]

/-- A newly built core over given registers (RESET_STATE) and devices (DEVICES): running, with an empty report log
(70_reset_and_hazards.md R210; 60_exceptions.md R197). -/
def State.construct (r : Registers) (devices : List Device) : State :=
  { pc := r.pc, sp := r.sp, a := r.a, x := r.x, y := r.y, p := r.p,
    status := .running, reports := [], devices := devices }

/-- The machine right after reset, which is construction (70_reset_and_hazards.md R210; 10_state.md R35). -/
def State.reset : State :=
  State.construct Registers.reset defaultDevices

end Sys2Proof.Machine
end

