-- ==== Sys2Proof/Machine/Ops.lean ====
section
/-! DEFINITION. The named operations over memory, the Bus and the registers, and halting: the one thing a fault does
to the machine. There is no trap entry and no trap return on this hardware (60_exceptions.md R190, R191). -/

namespace Sys2Proof.Machine

/-! Cells. -/

/-- The byte of a cell: the listed one, or what an unlisted cell reads as (20_memory.md R64; log entry 1). -/
def Memory.read : Memory → Nat → Byte
  | [], _ => Config.unlistedByte
  | (k, b) :: rest, j => if k = j then b else Memory.read rest j

/-- Put an entry at the head of a memory whose entries all lie above it, unless it says what an unlisted cell reads
as anyway. -/
def Memory.cons (j : Nat) (v : Byte) (m : Memory) : Memory :=
  if v = Config.unlistedByte then m else (j, v) :: m

/-- Write one cell, keeping the canonical form. -/
def Memory.write : Memory → Nat → Byte → Memory
  | [], j, v => Memory.cons j v []
  | (k, b) :: rest, j, v =>
    if j < k then Memory.cons j v ((k, b) :: rest)
    else if j = k then Memory.cons j v rest
    else (k, b) :: Memory.write rest j v

/-- Every index is at least `lo`, they rise strictly, and no entry holds what an unlisted cell reads as. -/
def Memory.wfFrom : Nat → Memory → Bool
  | _, [] => true
  | lo, (k, b) :: rest => decide (lo ≤ k) && decide (b ≠ Config.unlistedByte) && Memory.wfFrom (k + 1) rest

/-- The canonical form of a memory. -/
def Memory.wf (m : Memory) : Bool :=
  Memory.wfFrom 0 m

/-! The Memory Device. -/

/-- A new Memory Device over its initial contents MEM_INIT (60_exceptions.md R197; 20_memory.md R43). -/
def Device.new (base size : Nat) (init : Memory) : Device :=
  { base := base, size := size, cells := init }

/-- `get_address_space()`: the half-open range `[base, base + size)`, computed on integers (20_memory.md R41, R44). -/
def Device.addressSpace (d : Device) : Nat × Nat :=
  (d.base, d.base + d.size)

/-- Whether the device's range holds an address (20_memory.md R49). -/
def Device.maps (d : Device) (addr : Addr) : Bool :=
  decide (d.base ≤ addr.toNat) && decide (addr.toNat < d.base + d.size)

/-- A device's read: cell `addr - base` (20_memory.md R45). Outside its range the call is refused, `none` (R42;
log entry 12). -/
def Device.read (d : Device) (addr : Addr) : Option Byte :=
  if d.maps addr then some (Memory.read d.cells (addr.toNat - d.base)) else none

/-- A device's write of cell `addr - base` (20_memory.md R45). Outside its range the call is refused, `none` (R42;
log entry 12). -/
def Device.write (d : Device) (addr : Addr) (v : Byte) : Option Device :=
  if d.maps addr then some { d with cells := Memory.write d.cells (addr.toNat - d.base) v } else none

/-- A device is well formed when its cells are in canonical form and each lies inside its capacity. -/
def Device.wf (d : Device) : Bool :=
  Memory.wf d.cells && d.cells.all (fun c => decide (c.1 < d.size))

/-! The Bus. -/

/-- The device that answers for an address: the first in insertion order whose range holds it (20_memory.md R49,
R50). -/
def busSelect (ds : List Device) (addr : Addr) : Option Device :=
  ds.find? (fun d => d.maps addr)

/-- A Bus read: the selected device's byte, `none` when no device is selected (20_memory.md R52). -/
def busRead (ds : List Device) (addr : Addr) : Option Byte :=
  (busSelect ds addr).bind (fun d => d.read addr)

/-- The device list after a Bus write: the selected device, the first whose range holds the address, takes it; `none`
when no device is selected (20_memory.md R49, R51). -/
def busWrite : List Device → Addr → Byte → Option (List Device)
  | [], _, _ => none
  | d :: ds, addr, v =>
    if d.maps addr then (d.write addr v).map (fun d' => d' :: ds)
    else (busWrite ds addr v).map (fun ds' => d :: ds')

/-! The machine's registers and memory. -/

/-- A flag of `p` (00_scope.md R11). -/
def State.flag (s : State) (f : Flag) : Bool :=
  flagOf s.p f

/-- Write one flag of `p` (00_scope.md R11; 10_state.md R26). -/
def State.setFlag (s : State) (f : Flag) (v : Bool) : State :=
  { s with p := withFlag s.p f v }

/-- Write the accumulator. -/
def State.setA (s : State) (v : Byte) : State :=
  { s with a := v }

/-- Write the status byte. -/
def State.setP (s : State) (v : Byte) : State :=
  { s with p := v }

/-- `pc <- target` (00_scope.md R13). -/
def State.setPc (s : State) (target : Addr) : State :=
  { s with pc := target }

/-- The address `n` bytes past `pc`, mod 65536 (10_state.md R21; 30_encoding.md R75). -/
def State.pcPlus (s : State) (n : Nat) : Addr :=
  s.pc + BitVec.ofNat 16 n

/-- The advance: `pc <- (pc0 + length) mod 65536` (40_pipeline_and_addressing.md R102). -/
def State.advance (s : State) (len : Nat) : State :=
  s.setPc (s.pcPlus len)

/-- A branch offset as an address increment: the byte sign-extended to 16 bits (30_encoding.md R80). -/
def signExtendOffset (off : Byte) : Addr :=
  off.signExtend 16

/-- The branch step: to `pc0 + 2 + sext(off)` if taken, else to `pc0 + 2`, mod 65536 (43_branches.md R140). -/
def State.branch (s : State) (cond : Bool) (off : Byte) : State :=
  if cond then s.setPc (s.pcPlus 2 + signExtendOffset off) else s.advance 2

/-- The value of an index register, 0 for none (40_pipeline_and_addressing.md R100). -/
def State.index (s : State) : Index → Byte
  | .none => 0
  | .x => s.x
  | .y => s.y

/-- The byte at an address as the Bus reads it, `none` where no device maps it. -/
def State.byteAt (s : State) (addr : Addr) : Option Byte :=
  busRead s.devices addr

/-- `MemRead(addr, 1)`: raises `UnmappedRead(addr)` where no device maps the address (20_memory.md R52). -/
def State.memRead (s : State) (addr : Addr) : Except Fault Byte :=
  match s.byteAt addr with
  | some b => .ok b
  | none => .error (.unmappedRead addr)

/-- Append a record to the report log (00_scope.md R13; 10_state.md R32). -/
def State.report (s : State) (r : Report) : State :=
  { s with reports := s.reports ++ [r] }

/-- `MemWrite(addr, 1, v)`: never raises; where no device maps the address it changes no cell and reports
`UnroutedWrite(addr, v)` (20_memory.md R51; 60_exceptions.md R185). -/
def State.memWrite (s : State) (addr : Addr) (v : Byte) : State :=
  match busWrite s.devices addr v with
  | some ds => { s with devices := ds }
  | none => s.report (.unroutedWrite addr v)

/-- What a fault does to the machine: the status becomes `Halted(f)` and nothing else changes (60_exceptions.md R186,
R190). -/
def State.halt (s : State) (f : Fault) : State :=
  { s with status := .halted f }

/-- The fault's code, its place in the table (60_exceptions.md R180). -/
def Fault.code : Fault → Nat
  | .unknownOpcode _ _ => 0
  | .unsupportedAddressingMode _ _ _ => 1
  | .unsupportedInstruction _ _ => 2
  | .unmappedRead _ => 3

/-- Every device of a state is well formed: the state's memory is in canonical form. -/
def State.wf (s : State) : Bool :=
  s.devices.all Device.wf

end Sys2Proof.Machine
end

