-- ==== Sys2Proof/Machine/Place.lean ====
section
/-! DEFINITION. Placing an instruction's bytes where the next tick fetches them: the harness's store, which is no Bus
access of the hardware (log entry 6). -/

namespace Sys2Proof.Machine

/-- Store one byte in the device that answers for the address; an address no device maps takes nothing, and nothing
is reported. -/
def State.placeByte (s : State) (addr : Addr) (v : Byte) : State :=
  match busWrite s.devices addr v with
  | some ds => { s with devices := ds }
  | none => s

/-- Store bytes at consecutive addresses, mod 65536. -/
def State.placeBytes : State → Addr → List Byte → State
  | s, _, [] => s
  | s, addr, b :: rest => State.placeBytes (s.placeByte addr b) (addr + 1) rest

/-- A machine that is running, with the bytes at its `pc`. -/
def State.placeAtPc (s : State) (bytes : List Byte) : State :=
  State.placeBytes { s with status := .running } s.pc bytes

end Sys2Proof.Machine
end

