-- ==== Sys2Proof/WellFormed.lean ====
section
/-! DEFINITION. What makes an opcode-table record well formed: its mnemonic takes its addressing mode, and its length
is one byte more than the mode's operand bytes (00_scope.md R2; 30_encoding.md R74, R76, R81). These two checks are
written beside the decoder's table, not from it: that every record the decoder reads passes them is a statement.

An INSTRUCTION has no ill-formed term: its mode stands in its constructor, and an operand byte may hold every value
(R77 to R80), which its type says. `Instr.wellFormed` asks the two checks of the record its constructor names. -/

namespace Sys2Proof

/-- How many operand bytes follow the opcode, by mode (30_encoding.md R74, R76). -/
def Mode.operandCount : Mode → Nat
  | .accumulator => 0
  | .implied => 0
  | .immediate => 1
  | .zeroPage _ => 1
  | .indirect _ => 1
  | .relative => 1
  | .absolute _ => 2

/-- The modes ADC, AND and CMP take (30_encoding.md R81, "ADC 8, AND 8, CMP 8"). -/
def Mode.isRead : Mode → Bool
  | .immediate => true
  | .zeroPage .none => true
  | .zeroPage .x => true
  | .absolute _ => true
  | .indirect .x => true
  | .indirect .y => true
  | _ => false

/-- Check 1: the mnemonic takes the mode (30_encoding.md R81: the counts and forms per mnemonic). -/
def Mnemonic.takes : Mnemonic → Mode → Bool
  | .adc, m => m.isRead
  | .and, m => m.isRead
  | .cmp, m => m.isRead
  | .asl, m => m ∈ [.accumulator, .zeroPage .none, .zeroPage .x, .absolute .none, .absolute .x]
  | .bit, m => m ∈ [.zeroPage .none, .absolute .none]
  | .bcc, m | .bcs, m | .beq, m | .bmi, m | .bne, m | .bpl, m | .bvc, m | .bvs, m => m == .relative
  | .clc, m | .cld, m | .cli, m | .clv, m | .brk, m => m == .implied

/-- Check 2: "A record's length is always 1 + its number of operand bytes" (30_encoding.md R76). -/
def OperationCode.lengthFits (r : OperationCode) : Bool :=
  r.length == 1 + r.mode.operandCount

/-- Both checks of a record. -/
def OperationCode.wellFormed (r : OperationCode) : Bool :=
  r.kind.takes r.mode && r.lengthFits

/-- The mnemonic a constructor stands for (30_encoding.md R81). -/
def Instr.kind : Instr → Mnemonic
  | .adcImm _ | .adcZp _ | .adcZpX _ | .adcAbs _ | .adcAbsX _ | .adcAbsY _ | .adcIndX _ | .adcIndY _ => .adc
  | .andImm _ | .andZp _ | .andZpX _ | .andAbs _ | .andAbsX _ | .andAbsY _ | .andIndX _ | .andIndY _ => .and
  | .cmpImm _ | .cmpZp _ | .cmpZpX _ | .cmpAbs _ | .cmpAbsX _ | .cmpAbsY _ | .cmpIndX _ | .cmpIndY _ => .cmp
  | .aslAcc | .aslZp _ | .aslZpX _ | .aslAbs _ | .aslAbsX _ => .asl
  | .bitZp _ | .bitAbs _ => .bit
  | .bcc _ => .bcc
  | .bcs _ => .bcs
  | .beq _ => .beq
  | .bmi _ => .bmi
  | .bne _ => .bne
  | .bpl _ => .bpl
  | .bvc _ => .bvc
  | .bvs _ => .bvs
  | .clc => .clc
  | .cld => .cld
  | .cli => .cli
  | .clv => .clv
  | .brk => .brk

/-- The addressing mode a constructor stands for (30_encoding.md R74, R81). -/
def Instr.mode : Instr → Mode
  | .adcImm _ | .andImm _ | .cmpImm _ => .immediate
  | .adcZp _ | .andZp _ | .cmpZp _ | .aslZp _ | .bitZp _ => .zeroPage .none
  | .adcZpX _ | .andZpX _ | .cmpZpX _ | .aslZpX _ => .zeroPage .x
  | .adcAbs _ | .andAbs _ | .cmpAbs _ | .aslAbs _ | .bitAbs _ => .absolute .none
  | .adcAbsX _ | .andAbsX _ | .cmpAbsX _ | .aslAbsX _ => .absolute .x
  | .adcAbsY _ | .andAbsY _ | .cmpAbsY _ => .absolute .y
  | .adcIndX _ | .andIndX _ | .cmpIndX _ => .indirect .x
  | .adcIndY _ | .andIndY _ | .cmpIndY _ => .indirect .y
  | .aslAcc => .accumulator
  | .bcc _ | .bcs _ | .beq _ | .bmi _ | .bne _ | .bpl _ | .bvc _ | .bvs _ => .relative
  | .clc | .cld | .cli | .clv | .brk => .implied

/-- An instruction is well formed when its mnemonic takes its mode. -/
def Instr.wellFormed (i : Instr) : Bool :=
  i.kind.takes i.mode

end Sys2Proof
end

