-- ==== Sys2Proof/Decode.lean ====
section
/-! DEFINITION. The instruction decoder (30_encoding.md): the opcode table, the lookup of an opcode byte, the
decoder of a byte string, and after it the encoder. -/

namespace Sys2Proof

/-- Encoded length by mode (30_encoding.md R76). -/
def Mode.length : Mode → Nat
  | .accumulator => 1
  | .implied => 1
  | .immediate => 2
  | .zeroPage _ => 2
  | .indirect _ => 2
  | .relative => 2
  | .absolute _ => 3

/-- A 16-bit value of its low and high bytes, `hi * 256 + lo` (00_scope.md R9; 30_encoding.md R79). -/
def joinBytes (lo hi : Byte) : Addr :=
  BitVec.ofNat 16 (hi.toNat * 256 + lo.toNat)

/-- Bits 7..0 of an address. -/
def lowByte (w : Addr) : Byte :=
  BitVec.ofNat 8 w.toNat

/-- Bits 15..8 of an address. -/
def highByte (w : Addr) : Byte :=
  BitVec.ofNat 8 (w.toNat / 256)

/-- A row of the opcode table: the opcode byte, what the slot holds, and the instruction the slot makes of its first
and second operand bytes (a byte the mode does not have is not looked at). -/
structure Row where
  opcode : Byte
  kind : Mnemonic
  mode : Mode
  build : Byte → Byte → Instr

/-- Opcodes 0x00 to 0x2C (30_encoding.md R81). -/
def rowsLow : List Row := [
  ⟨0x00, .brk, .implied, fun _ _ => .brk⟩,
  ⟨0x06, .asl, .zeroPage .none, fun zp _ => .aslZp zp⟩,
  ⟨0x0A, .asl, .accumulator, fun _ _ => .aslAcc⟩,
  ⟨0x0E, .asl, .absolute .none, fun lo hi => .aslAbs (joinBytes lo hi)⟩,
  ⟨0x10, .bpl, .relative, fun off _ => .bpl off⟩,
  ⟨0x16, .asl, .zeroPage .x, fun zp _ => .aslZpX zp⟩,
  ⟨0x18, .clc, .implied, fun _ _ => .clc⟩,
  ⟨0x1E, .asl, .absolute .x, fun lo hi => .aslAbsX (joinBytes lo hi)⟩,
  ⟨0x21, .and, .indirect .x, fun zp _ => .andIndX zp⟩,
  ⟨0x24, .bit, .zeroPage .none, fun zp _ => .bitZp zp⟩,
  ⟨0x25, .and, .zeroPage .none, fun zp _ => .andZp zp⟩,
  ⟨0x29, .and, .immediate, fun imm _ => .andImm imm⟩,
  ⟨0x2C, .bit, .absolute .none, fun lo hi => .bitAbs (joinBytes lo hi)⟩]

/-- Opcodes 0x2D to 0x65 (30_encoding.md R81). -/
def rowsMid : List Row := [
  ⟨0x2D, .and, .absolute .none, fun lo hi => .andAbs (joinBytes lo hi)⟩,
  ⟨0x30, .bmi, .relative, fun off _ => .bmi off⟩,
  ⟨0x31, .and, .indirect .y, fun zp _ => .andIndY zp⟩,
  ⟨0x35, .and, .zeroPage .x, fun zp _ => .andZpX zp⟩,
  ⟨0x39, .and, .absolute .y, fun lo hi => .andAbsY (joinBytes lo hi)⟩,
  ⟨0x3D, .and, .absolute .x, fun lo hi => .andAbsX (joinBytes lo hi)⟩,
  ⟨0x50, .bvc, .relative, fun off _ => .bvc off⟩,
  ⟨0x58, .cli, .implied, fun _ _ => .cli⟩,
  ⟨0x61, .adc, .indirect .x, fun zp _ => .adcIndX zp⟩,
  ⟨0x65, .adc, .zeroPage .none, fun zp _ => .adcZp zp⟩]

/-- Opcodes 0x69 to 0xB8 (30_encoding.md R81). -/
def rowsHigh : List Row := [
  ⟨0x69, .adc, .immediate, fun imm _ => .adcImm imm⟩,
  ⟨0x6D, .adc, .absolute .none, fun lo hi => .adcAbs (joinBytes lo hi)⟩,
  ⟨0x70, .bvs, .relative, fun off _ => .bvs off⟩,
  ⟨0x71, .adc, .indirect .y, fun zp _ => .adcIndY zp⟩,
  ⟨0x75, .adc, .zeroPage .x, fun zp _ => .adcZpX zp⟩,
  ⟨0x79, .adc, .absolute .y, fun lo hi => .adcAbsY (joinBytes lo hi)⟩,
  ⟨0x7D, .adc, .absolute .x, fun lo hi => .adcAbsX (joinBytes lo hi)⟩,
  ⟨0x90, .bcc, .relative, fun off _ => .bcc off⟩,
  ⟨0xB0, .bcs, .relative, fun off _ => .bcs off⟩,
  ⟨0xB8, .clv, .implied, fun _ _ => .clv⟩]

/-- Opcodes 0xC1 to 0xF0 (30_encoding.md R81). -/
def rowsTop : List Row := [
  ⟨0xC1, .cmp, .indirect .x, fun zp _ => .cmpIndX zp⟩,
  ⟨0xC5, .cmp, .zeroPage .none, fun zp _ => .cmpZp zp⟩,
  ⟨0xC9, .cmp, .immediate, fun imm _ => .cmpImm imm⟩,
  ⟨0xCD, .cmp, .absolute .none, fun lo hi => .cmpAbs (joinBytes lo hi)⟩,
  ⟨0xD0, .bne, .relative, fun off _ => .bne off⟩,
  ⟨0xD1, .cmp, .indirect .y, fun zp _ => .cmpIndY zp⟩,
  ⟨0xD5, .cmp, .zeroPage .x, fun zp _ => .cmpZpX zp⟩,
  ⟨0xD8, .cld, .implied, fun _ _ => .cld⟩,
  ⟨0xD9, .cmp, .absolute .y, fun lo hi => .cmpAbsY (joinBytes lo hi)⟩,
  ⟨0xDD, .cmp, .absolute .x, fun lo hi => .cmpAbsX (joinBytes lo hi)⟩,
  ⟨0xF0, .beq, .relative, fun off _ => .beq off⟩]

/-- The populated slots, 44 in all (30_encoding.md R81). A constant of the hardware, not state (10_state.md R34).
UNVERIFIED (log entry 9, unsafe): every byte but 0x69 is the spec's own choice D17. -/
def opTable : List Row :=
  rowsLow ++ rowsMid ++ rowsHigh ++ rowsTop

/-- The row of an opcode byte, or `none` for an empty slot: all 256 bytes have a slot (30_encoding.md R72, R73, R82). -/
def findRow (op : Byte) : Option Row :=
  opTable.find? (fun r => r.opcode == op)

/-- The record a row's slot holds (30_encoding.md R71). -/
def Row.code (r : Row) : OperationCode :=
  ⟨r.kind, r.mode, r.mode.length, Config.baseCycles r.opcode⟩

/-- Decode of an opcode byte: the record of its slot, or `none` for an empty slot (30_encoding.md R72). -/
def lookup (op : Byte) : Option OperationCode :=
  (findRow op).map Row.code

/-- Why the decoder refuses a byte string. -/
inductive DecodeError where
  /-- No opcode byte to decode. -/
  | noBytes
  /-- The opcode's slot is empty (30_encoding.md R72, R82). -/
  | emptySlot (op : Byte)
  /-- The string ends before the operand bytes the opcode's mode has (30_encoding.md R75). -/
  | truncated (op : Byte)
  deriving DecidableEq, Repr

/-- The operand bytes a row takes off a byte string, as its instruction and the rest (30_encoding.md R75, R76). -/
def Row.take (r : Row) (rest : List Byte) : Except DecodeError (Instr × List Byte) :=
  match r.mode.length, rest with
  | 1, rest => .ok (r.build 0 0, rest)
  | 2, b :: rest => .ok (r.build b 0, rest)
  | 3, lo :: hi :: rest => .ok (r.build lo hi, rest)
  | _, _ => .error (.truncated r.opcode)

/-- The decoder: total on every byte string, the instruction at its head and the rest, or why not. It "looks at the
opcode byte alone" to select the instruction (30_encoding.md R72, R84). -/
def decode : List Byte → Except DecodeError (Instr × List Byte)
  | [] => .error .noBytes
  | op :: rest =>
    match findRow op with
    | none => .error (.emptySlot op)
    | some r => r.take rest

/-- The three bytes of an Absolute form, the address low byte first (30_encoding.md R75, R79). -/
def encodeAbs (op : Byte) (base : Addr) : List Byte :=
  [op, lowByte base, highByte base]

/-- The encoder: the bytes of an instruction (30_encoding.md R75, R81), written by constructor and not from the
decoder's table. -/
def encode : Instr → List Byte
  | .adcImm imm => [0x69, imm]
  | .adcZp zp => [0x65, zp]
  | .adcZpX zp => [0x75, zp]
  | .adcAbs base => encodeAbs 0x6D base
  | .adcAbsX base => encodeAbs 0x7D base
  | .adcAbsY base => encodeAbs 0x79 base
  | .adcIndX zp => [0x61, zp]
  | .adcIndY zp => [0x71, zp]
  | .andImm imm => [0x29, imm]
  | .andZp zp => [0x25, zp]
  | .andZpX zp => [0x35, zp]
  | .andAbs base => encodeAbs 0x2D base
  | .andAbsX base => encodeAbs 0x3D base
  | .andAbsY base => encodeAbs 0x39 base
  | .andIndX zp => [0x21, zp]
  | .andIndY zp => [0x31, zp]
  | .cmpImm imm => [0xC9, imm]
  | .cmpZp zp => [0xC5, zp]
  | .cmpZpX zp => [0xD5, zp]
  | .cmpAbs base => encodeAbs 0xCD base
  | .cmpAbsX base => encodeAbs 0xDD base
  | .cmpAbsY base => encodeAbs 0xD9 base
  | .cmpIndX zp => [0xC1, zp]
  | .cmpIndY zp => [0xD1, zp]
  | .aslAcc => [0x0A]
  | .aslZp zp => [0x06, zp]
  | .aslZpX zp => [0x16, zp]
  | .aslAbs base => encodeAbs 0x0E base
  | .aslAbsX base => encodeAbs 0x1E base
  | .bitZp zp => [0x24, zp]
  | .bitAbs base => encodeAbs 0x2C base
  | .bcc off => [0x90, off]
  | .bcs off => [0xB0, off]
  | .beq off => [0xF0, off]
  | .bmi off => [0x30, off]
  | .bne off => [0xD0, off]
  | .bpl off => [0x10, off]
  | .bvc off => [0x50, off]
  | .bvs off => [0x70, off]
  | .clc => [0x18]
  | .cld => [0xD8]
  | .cli => [0x58]
  | .clv => [0xB8]
  | .brk => [0x00]

/-- Byte k of an instruction given as one number of `nbits` bits, the first byte its least significant; every bit
above `nbits` is 0. -/
def tableByte (nbits w k : Nat) : Byte :=
  BitVec.ofNat 8 ((w % 2 ^ nbits) / 2 ^ (8 * k))

/-- The longest instruction's three bytes of such a number, in memory order. -/
def tableBytes (nbits w : Nat) : List Byte :=
  [tableByte nbits w 0, tableByte nbits w 1, tableByte nbits w 2]

/-- What the decoder reads from an instruction given as spec/opcode_table.json numbers its bits. -/
def decodeTableWord (nbits w : Nat) : Option Instr :=
  match decode (tableBytes nbits w) with
  | .ok (i, _) => some i
  | .error _ => none

end Sys2Proof
end

