-- ==== Sys2Proof/Machine/Operands.lean ====
section
/-! DEFINITION. The addressing-mode resolver (40_pipeline_and_addressing.md R93 to R100). The instruction carries its
operand bytes, which the fetch has read in the order of R104 (log entry 7). -/

namespace Sys2Proof.Machine

/-- Where an operand stands: the accumulator, or a 16-bit effective address (40_pipeline_and_addressing.md R94). -/
inductive Loc where
  | acc
  | mem (ea : Addr)
  deriving DecidableEq, Repr

/-- The Resolved Operand `(loc, value, extra)` (40_pipeline_and_addressing.md R94). -/
structure Operand where
  loc : Loc
  value : Byte
  extra : Nat
  deriving DecidableEq, Repr

/-- Accumulator mode: the accumulator's value, no Bus access (40_pipeline_and_addressing.md R95). -/
def resolveAccumulator (s : State) : Operand :=
  { loc := .acc, value := s.a, extra := 0 }

/-- Immediate mode: the byte after the opcode itself, with its address as the location
(40_pipeline_and_addressing.md R96). -/
def resolveImmediate (s : State) (imm : Byte) : Operand :=
  { loc := .mem (s.pcPlus 1), value := imm, extra := 0 }

/-- The effective address of ZeroPage mode: wraps within 0x0000 to 0x00FF (40_pipeline_and_addressing.md R97). -/
def eaZeroPage (s : State) (i : Index) (zp : Byte) : Addr :=
  (zp + s.index i).zeroExtend 16

/-- The effective address of Absolute mode: wraps at 16 bits (40_pipeline_and_addressing.md R98). -/
def eaAbsolute (s : State) (i : Index) (base : Addr) : Addr :=
  base + (s.index i).zeroExtend 16

/-- The operand at an effective address: one Bus read, which may raise `UnmappedRead(ea)`; extra cycles are always 0
(40_pipeline_and_addressing.md R97, R98, R106). -/
def resolveAt (s : State) (ea : Addr) : Except Fault Operand :=
  match s.memRead ea with
  | .ok v => .ok { loc := .mem ea, value := v, extra := 0 }
  | .error f => .error f

/-- ZeroPage mode (40_pipeline_and_addressing.md R97). -/
def resolveZeroPage (s : State) (i : Index) (zp : Byte) : Except Fault Operand :=
  resolveAt s (eaZeroPage s i zp)

/-- Absolute mode (40_pipeline_and_addressing.md R98). -/
def resolveAbsolute (s : State) (i : Index) (base : Addr) : Except Fault Operand :=
  resolveAt s (eaAbsolute s i base)

/-- Indirect mode has no resolution: it raises `UnsupportedAddressingMode(pc0, op, Indirect)`
(40_pipeline_and_addressing.md R99). -/
def resolveIndirect (s : State) (op : Byte) (i : Index) : Fault :=
  .unsupportedAddressingMode s.pc op (.indirect i)

/-- The execute stage of an instruction with a resolved operand: a fault of the resolver ends the tick, else the
handler runs (40_pipeline_and_addressing.md R101, R105). -/
def withOperand (r : Except Fault Operand) (handler : Operand → State) : Host.Outcome State Fault Refusal :=
  match r with
  | .ok o => .next (handler o)
  | .error f => .fault f

/-- Write a result back to where its operand stands (40_pipeline_and_addressing.md R101, R104; 42_asl.md R130,
R131). -/
def writeBack (s : State) (loc : Loc) (r : Byte) : State :=
  match loc with
  | .acc => s.setA r
  | .mem ea => s.memWrite ea r

end Sys2Proof.Machine
end

