-- ==== Sys2Proof/Machine/Alu.lean ====
section
/-! DEFINITION. ADC and AND (41_adc_and.md), CMP and BIT (45_bit_cmp_brk.md): one handler each, and one meaning per
form. A handler takes the Resolved Operand, the record's length and the state, and ends with the advance. -/

namespace Sys2Proof.Machine

/-- ADC: add with carry; a, C, V, Z and N written (41_adc_and.md R120). -/
def adcHandler (o : Operand) (len : Nat) (s : State) : State :=
  ((s.setA (adcResult s.a o.value (s.flag .c))).setP (adcStatus s.p s.a o.value)).advance len

/-- AND: bitwise and; a, Z and N written (41_adc_and.md R125). -/
def andHandler (o : Operand) (len : Nat) (s : State) : State :=
  ((s.setA (s.a &&& o.value)).setP (withZN s.p (s.a &&& o.value))).advance len

/-- CMP: compare; C, Z and N written, the accumulator kept (45_bit_cmp_brk.md R171). -/
def cmpHandler (o : Operand) (len : Nat) (s : State) : State :=
  (s.setP (cmpStatus s.p s.a o.value)).advance len

/-- BIT: test bits; Z, N and V written, the accumulator kept (45_bit_cmp_brk.md R170). -/
def bitHandler (o : Operand) (len : Nat) (s : State) : State :=
  (s.setP (bitStatus s.p s.a o.value)).advance len

/-! ADC. -/

/-- ADC #imm (41_adc_and.md R120). -/
def execAdcImm (imm : Byte) (s : State) : Host.Outcome State Fault Refusal :=
  .next (adcHandler (resolveImmediate s imm) (Mode.length .immediate) s)

/-- ADC zp (41_adc_and.md R120). -/
def execAdcZp (zp : Byte) (s : State) : Host.Outcome State Fault Refusal :=
  withOperand (resolveZeroPage s .none zp) (fun o => adcHandler o (Mode.length (.zeroPage .none)) s)

/-- ADC zp,X (41_adc_and.md R120). -/
def execAdcZpX (zp : Byte) (s : State) : Host.Outcome State Fault Refusal :=
  withOperand (resolveZeroPage s .x zp) (fun o => adcHandler o (Mode.length (.zeroPage .x)) s)

/-- ADC abs (41_adc_and.md R120). -/
def execAdcAbs (base : Addr) (s : State) : Host.Outcome State Fault Refusal :=
  withOperand (resolveAbsolute s .none base) (fun o => adcHandler o (Mode.length (.absolute .none)) s)

/-- ADC abs,X (41_adc_and.md R120). -/
def execAdcAbsX (base : Addr) (s : State) : Host.Outcome State Fault Refusal :=
  withOperand (resolveAbsolute s .x base) (fun o => adcHandler o (Mode.length (.absolute .x)) s)

/-- ADC abs,Y (41_adc_and.md R120). -/
def execAdcAbsY (base : Addr) (s : State) : Host.Outcome State Fault Refusal :=
  withOperand (resolveAbsolute s .y base) (fun o => adcHandler o (Mode.length (.absolute .y)) s)

/-- ADC (zp,X): faults before any operand byte is read (40_pipeline_and_addressing.md R99). -/
def execAdcIndX (_zp : Byte) (s : State) : Host.Outcome State Fault Refusal :=
  .fault (resolveIndirect s 0x61 .x)

/-- ADC (zp),Y: faults before any operand byte is read (40_pipeline_and_addressing.md R99). -/
def execAdcIndY (_zp : Byte) (s : State) : Host.Outcome State Fault Refusal :=
  .fault (resolveIndirect s 0x71 .y)

/-! AND. -/

/-- AND #imm (41_adc_and.md R125). -/
def execAndImm (imm : Byte) (s : State) : Host.Outcome State Fault Refusal :=
  .next (andHandler (resolveImmediate s imm) (Mode.length .immediate) s)

/-- AND zp (41_adc_and.md R125). -/
def execAndZp (zp : Byte) (s : State) : Host.Outcome State Fault Refusal :=
  withOperand (resolveZeroPage s .none zp) (fun o => andHandler o (Mode.length (.zeroPage .none)) s)

/-- AND zp,X (41_adc_and.md R125). -/
def execAndZpX (zp : Byte) (s : State) : Host.Outcome State Fault Refusal :=
  withOperand (resolveZeroPage s .x zp) (fun o => andHandler o (Mode.length (.zeroPage .x)) s)

/-- AND abs (41_adc_and.md R125). -/
def execAndAbs (base : Addr) (s : State) : Host.Outcome State Fault Refusal :=
  withOperand (resolveAbsolute s .none base) (fun o => andHandler o (Mode.length (.absolute .none)) s)

/-- AND abs,X (41_adc_and.md R125). -/
def execAndAbsX (base : Addr) (s : State) : Host.Outcome State Fault Refusal :=
  withOperand (resolveAbsolute s .x base) (fun o => andHandler o (Mode.length (.absolute .x)) s)

/-- AND abs,Y (41_adc_and.md R125). -/
def execAndAbsY (base : Addr) (s : State) : Host.Outcome State Fault Refusal :=
  withOperand (resolveAbsolute s .y base) (fun o => andHandler o (Mode.length (.absolute .y)) s)

/-- AND (zp,X): faults before any operand byte is read (40_pipeline_and_addressing.md R99). -/
def execAndIndX (_zp : Byte) (s : State) : Host.Outcome State Fault Refusal :=
  .fault (resolveIndirect s 0x21 .x)

/-- AND (zp),Y: faults before any operand byte is read (40_pipeline_and_addressing.md R99). -/
def execAndIndY (_zp : Byte) (s : State) : Host.Outcome State Fault Refusal :=
  .fault (resolveIndirect s 0x31 .y)

/-! CMP. -/

/-- CMP #imm (45_bit_cmp_brk.md R171). -/
def execCmpImm (imm : Byte) (s : State) : Host.Outcome State Fault Refusal :=
  .next (cmpHandler (resolveImmediate s imm) (Mode.length .immediate) s)

/-- CMP zp (45_bit_cmp_brk.md R171). -/
def execCmpZp (zp : Byte) (s : State) : Host.Outcome State Fault Refusal :=
  withOperand (resolveZeroPage s .none zp) (fun o => cmpHandler o (Mode.length (.zeroPage .none)) s)

/-- CMP zp,X (45_bit_cmp_brk.md R171). -/
def execCmpZpX (zp : Byte) (s : State) : Host.Outcome State Fault Refusal :=
  withOperand (resolveZeroPage s .x zp) (fun o => cmpHandler o (Mode.length (.zeroPage .x)) s)

/-- CMP abs (45_bit_cmp_brk.md R171). -/
def execCmpAbs (base : Addr) (s : State) : Host.Outcome State Fault Refusal :=
  withOperand (resolveAbsolute s .none base) (fun o => cmpHandler o (Mode.length (.absolute .none)) s)

/-- CMP abs,X (45_bit_cmp_brk.md R171). -/
def execCmpAbsX (base : Addr) (s : State) : Host.Outcome State Fault Refusal :=
  withOperand (resolveAbsolute s .x base) (fun o => cmpHandler o (Mode.length (.absolute .x)) s)

/-- CMP abs,Y (45_bit_cmp_brk.md R171). -/
def execCmpAbsY (base : Addr) (s : State) : Host.Outcome State Fault Refusal :=
  withOperand (resolveAbsolute s .y base) (fun o => cmpHandler o (Mode.length (.absolute .y)) s)

/-- CMP (zp,X): faults before any operand byte is read (40_pipeline_and_addressing.md R99). -/
def execCmpIndX (_zp : Byte) (s : State) : Host.Outcome State Fault Refusal :=
  .fault (resolveIndirect s 0xC1 .x)

/-- CMP (zp),Y: faults before any operand byte is read (40_pipeline_and_addressing.md R99). -/
def execCmpIndY (_zp : Byte) (s : State) : Host.Outcome State Fault Refusal :=
  .fault (resolveIndirect s 0xD1 .y)

/-! BIT. -/

/-- BIT zp (45_bit_cmp_brk.md R170). -/
def execBitZp (zp : Byte) (s : State) : Host.Outcome State Fault Refusal :=
  withOperand (resolveZeroPage s .none zp) (fun o => bitHandler o (Mode.length (.zeroPage .none)) s)

/-- BIT abs (45_bit_cmp_brk.md R170). -/
def execBitAbs (base : Addr) (s : State) : Host.Outcome State Fault Refusal :=
  withOperand (resolveAbsolute s .none base) (fun o => bitHandler o (Mode.length (.absolute .none)) s)

end Sys2Proof.Machine
end

