-- ==== Sys2Proof/Machine/Branch.lean ====
section
/-! DEFINITION. The eight conditional branches, each the shared branch step over the flag and polarity it tests
(43_branches.md R140 to R148). The fetch has read the offset byte, whether or not the branch is taken (R140). -/

namespace Sys2Proof.Machine

/-- BCC: branch if Carry clear (43_branches.md R141). -/
def execBcc (off : Byte) (s : State) : Host.Outcome State Fault Refusal :=
  .next (s.branch (!s.flag .c) off)

/-- BCS: branch if Carry set (43_branches.md R142). -/
def execBcs (off : Byte) (s : State) : Host.Outcome State Fault Refusal :=
  .next (s.branch (s.flag .c) off)

/-- BEQ: branch if Zero set (43_branches.md R143). -/
def execBeq (off : Byte) (s : State) : Host.Outcome State Fault Refusal :=
  .next (s.branch (s.flag .z) off)

/-- BMI: branch if Negative set (43_branches.md R144). -/
def execBmi (off : Byte) (s : State) : Host.Outcome State Fault Refusal :=
  .next (s.branch (s.flag .n) off)

/-- BNE: branch if Zero clear (43_branches.md R145). -/
def execBne (off : Byte) (s : State) : Host.Outcome State Fault Refusal :=
  .next (s.branch (!s.flag .z) off)

/-- BPL: branch if Negative clear (43_branches.md R146). -/
def execBpl (off : Byte) (s : State) : Host.Outcome State Fault Refusal :=
  .next (s.branch (!s.flag .n) off)

/-- BVC: branch if Overflow clear (43_branches.md R147). -/
def execBvc (off : Byte) (s : State) : Host.Outcome State Fault Refusal :=
  .next (s.branch (!s.flag .v) off)

/-- BVS: branch if Overflow set (43_branches.md R148). -/
def execBvs (off : Byte) (s : State) : Host.Outcome State Fault Refusal :=
  .next (s.branch (s.flag .v) off)

end Sys2Proof.Machine
end

