-- ==== Sys2Proof/Machine/Break.lean ====
section
/-! DEFINITION. BRK, which always faults (45_bit_cmp_brk.md R172; 60_exceptions.md R183). -/

namespace Sys2Proof.Machine

/-- BRK raises `UnsupportedInstruction(pc0, 0x00)`: "interrupt handling is a non-goal" and the hardware has no stack
and no vector (45_bit_cmp_brk.md R172). -/
def execBrk (s : State) : Host.Outcome State Fault Refusal :=
  .fault (.unsupportedInstruction s.pc 0x00)

end Sys2Proof.Machine
end

