-- ==== Sys2Proof/Machine/FlagClear.lean ====
section
/-! DEFINITION. The four flag clears (44_flag_clear.md R160 to R163). -/

namespace Sys2Proof.Machine

/-- CLC: clear Carry (44_flag_clear.md R160). -/
def execClc (s : State) : Host.Outcome State Fault Refusal :=
  .next ((s.setFlag .c false).advance (Mode.length .implied))

/-- CLD: clear DecimalMode (44_flag_clear.md R161). -/
def execCld (s : State) : Host.Outcome State Fault Refusal :=
  .next ((s.setFlag .d false).advance (Mode.length .implied))

/-- CLI: clear InterruptDisable (44_flag_clear.md R162). -/
def execCli (s : State) : Host.Outcome State Fault Refusal :=
  .next ((s.setFlag .i false).advance (Mode.length .implied))

/-- CLV: clear Overflow (44_flag_clear.md R163). -/
def execClv (s : State) : Host.Outcome State Fault Refusal :=
  .next ((s.setFlag .v false).advance (Mode.length .implied))

end Sys2Proof.Machine
end

