-- ==== Sys2Proof/Machine/Shift.lean ====
section
/-! DEFINITION. ASL on the accumulator and on memory (42_asl.md). -/

namespace Sys2Proof.Machine

/-- ASL: shift the operand left by one and write it back where it stands, then C, Z and N, then the advance
(42_asl.md R130, R131). -/
def aslHandler (o : Operand) (len : Nat) (s : State) : State :=
  ((writeBack s o.loc (aslResult o.value)).setP (aslStatus s.p o.value)).advance len

/-- ASL A (42_asl.md R130). -/
def execAslAcc (s : State) : Host.Outcome State Fault Refusal :=
  .next (aslHandler (resolveAccumulator s) (Mode.length .accumulator) s)

/-- ASL zp (42_asl.md R131). -/
def execAslZp (zp : Byte) (s : State) : Host.Outcome State Fault Refusal :=
  withOperand (resolveZeroPage s .none zp) (fun o => aslHandler o (Mode.length (.zeroPage .none)) s)

/-- ASL zp,X (42_asl.md R131). -/
def execAslZpX (zp : Byte) (s : State) : Host.Outcome State Fault Refusal :=
  withOperand (resolveZeroPage s .x zp) (fun o => aslHandler o (Mode.length (.zeroPage .x)) s)

/-- ASL abs (42_asl.md R131). -/
def execAslAbs (base : Addr) (s : State) : Host.Outcome State Fault Refusal :=
  withOperand (resolveAbsolute s .none base) (fun o => aslHandler o (Mode.length (.absolute .none)) s)

/-- ASL abs,X (42_asl.md R131). -/
def execAslAbsX (base : Addr) (s : State) : Host.Outcome State Fault Refusal :=
  withOperand (resolveAbsolute s .x base) (fun o => aslHandler o (Mode.length (.absolute .x)) s)

end Sys2Proof.Machine
end

