-- ==== Sys2Proof/Machine/Fetch.lean ====
section
/-! DEFINITION. The fetch unit: the opcode read, the table lookup and the operand-byte reads of one tick, in the order
of 40_pipeline_and_addressing.md R104, each read a Bus read that may fault (60_exceptions.md R188). -/

namespace Sys2Proof.Machine

/-- The first operand byte of an Indirect form. The hardware reads no operand byte of it
(40_pipeline_and_addressing.md R99), so this is no Bus read and raises nothing: it is the byte that stands after the
opcode, 0 where no device maps it, and no meaning looks at it. DESIGN CHOICE (log entry 3, safe). -/
def unreadOperand (s : State) : Byte :=
  (s.byteAt (s.pcPlus 1)).getD 0

/-- The operand-byte reads of a mode, at `pc0 + 1` before `pc0 + 2` (40_pipeline_and_addressing.md R96 to R98, R104;
43_branches.md R140): the first and the second byte, 0 for one the mode does not have. -/
def fetchOperands (s : State) : Mode → Except Fault (Byte × Byte)
  | .accumulator => .ok (0, 0)
  | .implied => .ok (0, 0)
  | .indirect _ => .ok (unreadOperand s, 0)
  | .immediate => (s.memRead (s.pcPlus 1)).map (fun b => (b, 0))
  | .zeroPage _ => (s.memRead (s.pcPlus 1)).map (fun b => (b, 0))
  | .relative => (s.memRead (s.pcPlus 1)).map (fun b => (b, 0))
  | .absolute _ =>
    match s.memRead (s.pcPlus 1) with
    | .error f => .error f
    | .ok lo => (s.memRead (s.pcPlus 2)).map (fun hi => (lo, hi))

/-- Fetch and decode: the instruction at `pc`, or the fault of the first stage that meets one
(40_pipeline_and_addressing.md R91, R92, R105; 60_exceptions.md R188). -/
def fetchInstr (s : State) : Except Fault Instr :=
  match s.memRead s.pc with
  | .error f => .error f
  | .ok op =>
    match findRow op with
    | none => .error (.unknownOpcode s.pc op)
    | some r => (fetchOperands s r.mode).map (fun b => r.build b.1 b.2)

end Sys2Proof.Machine
end

