-- ==== Sys2Proof/Machine/Tick.lean ====
section
/-! DEFINITION. One `tick`: what it returns and the state it leaves (40_pipeline_and_addressing.md R90, R105;
60_exceptions.md R186). `Host.Outcome` carries no state beside a fault, so the two are two functions: `tickOutcome`
answers the next state or the fault, `tickState` the state after the tick in every case (log entry 2). -/

namespace Sys2Proof.Machine

/-- What `tick` answers: on a halted machine the same fault again (40_pipeline_and_addressing.md R90); else the fault
of the fetch or decode, or what executing the instruction gives (R105). -/
def tickOutcome (s : State) : Host.Outcome State Fault Refusal :=
  match s.status with
  | .halted f => .fault f
  | .running =>
    match fetchInstr s with
    | .error f => .fault f
    | .ok i => exec i s

/-- The state after a tick: a tick that raises `f` leaves everything but the status, which becomes `Halted(f)`
(60_exceptions.md R186; 40_pipeline_and_addressing.md R103). -/
def tickState (s : State) : State :=
  match tickOutcome s with
  | .next t => t
  | .fault f => s.halt f
  | .refused _ => s

/-- The state after `n` ticks (60_exceptions.md R198; 40_pipeline_and_addressing.md R107). After a fault every tick
leaves the state as it is. -/
def ticks : Nat → State → State
  | 0, s => s
  | n + 1, s => ticks n (tickState s)

end Sys2Proof.Machine
end

