-- ==== Sys2Proof/Machine/Step.lean ====
section
/-! DEFINITION. The machine's one step, which is one `tick` (40_pipeline_and_addressing.md R90). -/

namespace Sys2Proof.Machine

/-- One step: one tick, one whole instruction (00_scope.md R6; 40_pipeline_and_addressing.md R90). -/
def step (s : State) : Host.Outcome State Fault Refusal :=
  tickOutcome s

/-- The state with an instruction, given as spec/opcode_table.json numbers its bits, stored where the next step
fetches it (log entry 6). -/
def State.withFetchWord (s : State) (nbits w : Nat) : State :=
  s.placeAtPc (tableBytes nbits w)

end Sys2Proof.Machine
end

