-- ==== Sys2Proof/Machine/HostPort.lean ====
section
/-! DEFINITION. What the host may do between ticks (60_exceptions.md R197; 20_memory.md R53). Constructing the core is
`State.construct` and constructing a device is `Device.new`. -/

namespace Sys2Proof.Machine

/-- `bus.read(addr)` by the host: the byte, or `none` for "unmapped"; no state changes and nothing halts
(20_memory.md R53). -/
def State.hostRead (s : State) (addr : Addr) : Option Byte :=
  s.byteAt addr

/-- `bus.write(addr, v)` by the host: as an instruction's write, so it may report (20_memory.md R51, R53). -/
def State.hostWrite (s : State) (addr : Addr) (v : Byte) : State :=
  s.memWrite addr v

/-- The loader: a program image is "a sequence of `write` calls" (70_reset_and_hazards.md R212), here at rising
addresses. -/
def State.loadImage : State → Addr → List Byte → State
  | s, _, [] => s
  | s, addr, b :: rest => State.loadImage (s.hostWrite addr b) (addr + 1) rest

/-- `dump_registers()` as reading the register file; its text is not specified (60_exceptions.md R195). -/
def State.dumpRegisters (s : State) : Registers :=
  { pc := s.pc, sp := s.sp, a := s.a, x := s.x, y := s.y, p := s.p }

end Sys2Proof.Machine
end

