-- ==== Sys2Proof/Safety.lean ====
section
/-! DEFINITION. The terms statements use: what a step leaves alone, where code stands, and what a safe run is. -/

namespace Sys2Proof.Machine

/-- The bytes stand at consecutive addresses, mod 65536, each mapped (30_encoding.md R70, R75). -/
def State.holdsAt (s : State) : Addr → List Byte → Prop
  | _, [] => True
  | addr, b :: rest => s.byteAt addr = some b ∧ State.holdsAt s (addr + 1) rest

/-- The fixed device configuration: ranges in order (20_memory.md R41, R49). -/
def State.layout (s : State) : List (Nat × Nat) :=
  s.devices.map Device.addressSpace

/-- Apply a function to the state of a next outcome; a fault or a refusal stays. -/
def mapNext (f : State → State) : Host.Outcome State Fault Refusal → Host.Outcome State Fault Refusal
  | .next t => .next (f t)
  | .fault r => .fault r
  | .refused r => .refused r

/-- A run of `n` ticks that meets no fault (60_exceptions.md R198: "a run that ends at a fault is a failed run"). -/
def RunsFor (n : Nat) (s : State) : Prop :=
  ∃ t, Host.Core.run Sys2Proof.core n s = .next t

end Sys2Proof.Machine
end

