-- ==== Sys2Proof/Certificates/Slice0/Obligations.lean ====
section
/-! DEFINITION. The statements about the machine, each from the rules of spec/ its docstring names. -/

open Sys2Proof Sys2Proof.Machine

namespace Sys2Proof.Claims

/-! The words the statements share. -/

/-- Everything but a, p and pc is as it was: the other registers, the status, the report log, the devices and what
every address reads as. -/
def RestKept (s t : State) : Prop :=
  t.sp = s.sp ∧ t.x = s.x ∧ t.y = s.y ∧ t.status = s.status ∧ t.reports = s.reports ∧ t.devices = s.devices ∧
    ∀ w, t.byteAt w = s.byteAt w

/-- Every flag but the written ones is as it was, and so is bit 7 of p. -/
def FlagsKept (s t : State) (written : List Flag) : Prop :=
  (∀ f, f ∉ written → t.flag f = s.flag f) ∧ t.p.getLsbD 7 = s.p.getLsbD 7

/-- The six executing forms of ADC, AND and CMP each go on, where their operand is readable, with the effect of the
operand's value and the form's length. -/
def EveryReadForm (imm zp zpX : Byte → Instr) (abs absX absY : Addr → Instr) (s : State)
    (effect : Byte → Nat → State → Prop) : Prop :=
  (∀ m, ∃ t, exec (imm m) s = .next t ∧ effect m 2 t) ∧
  (∀ z m, s.byteAt (eaZeroPage s .none z) = some m → ∃ t, exec (zp z) s = .next t ∧ effect m 2 t) ∧
  (∀ z m, s.byteAt (eaZeroPage s .x z) = some m → ∃ t, exec (zpX z) s = .next t ∧ effect m 2 t) ∧
  (∀ b m, s.byteAt (eaAbsolute s .none b) = some m → ∃ t, exec (abs b) s = .next t ∧ effect m 3 t) ∧
  (∀ b m, s.byteAt (eaAbsolute s .x b) = some m → ∃ t, exec (absX b) s = .next t ∧ effect m 3 t) ∧
  (∀ b m, s.byteAt (eaAbsolute s .y b) = some m → ∃ t, exec (absY b) s = .next t ∧ effect m 3 t)

/-- What ADC of the operand m leaves (41_adc_and.md R120, R121, R122). -/
def AdcEffect (s : State) (m : Byte) (len : Nat) (t : State) : Prop :=
  t.a.toNat = (s.a.toNat + m.toNat + (s.flag .c).toNat) % 256 ∧
  t.flag .c = decide (255 < s.a.toNat + m.toNat + (s.flag .c).toNat) ∧
  t.flag .v = ((s.a ^^^ t.a) &&& (m ^^^ t.a)).getLsbD 7 ∧
  t.flag .z = decide (t.a = 0) ∧
  t.flag .n = t.a.getLsbD 7 ∧
  FlagsKept s t [.c, .v, .z, .n] ∧
  t.pc = s.pc + BitVec.ofNat 16 len ∧
  RestKept s t

/-- What AND of the operand m leaves (41_adc_and.md R125). -/
def AndEffect (s : State) (m : Byte) (len : Nat) (t : State) : Prop :=
  t.a = s.a &&& m ∧
  t.flag .z = decide (s.a &&& m = 0) ∧
  t.flag .n = (s.a &&& m).getLsbD 7 ∧
  FlagsKept s t [.z, .n] ∧
  t.pc = s.pc + BitVec.ofNat 16 len ∧
  RestKept s t

/-- What CMP of the operand m leaves (45_bit_cmp_brk.md R171). -/
def CmpEffect (s : State) (m : Byte) (len : Nat) (t : State) : Prop :=
  t.a = s.a ∧
  t.flag .c = decide (m.toNat ≤ s.a.toNat) ∧
  t.flag .z = decide (s.a = m) ∧
  t.flag .n = (BitVec.ofInt 8 (s.a.toNat - m.toNat)).getLsbD 7 ∧
  FlagsKept s t [.c, .z, .n] ∧
  t.pc = s.pc + BitVec.ofNat 16 len ∧
  RestKept s t

/-- What BIT of the operand m leaves (45_bit_cmp_brk.md R170). -/
def BitEffect (s : State) (m : Byte) (len : Nat) (t : State) : Prop :=
  t.a = s.a ∧
  t.flag .z = decide (s.a &&& m = 0) ∧
  t.flag .n = m.getLsbD 7 ∧
  t.flag .v = m.getLsbD 6 ∧
  FlagsKept s t [.z, .n, .v] ∧
  t.pc = s.pc + BitVec.ofNat 16 len ∧
  RestKept s t

/-- The flags ASL leaves of the operand m (42_asl.md R130, R131). -/
def AslFlags (s : State) (m : Byte) (t : State) : Prop :=
  t.flag .c = m.getLsbD 7 ∧
  t.flag .z = decide (m.toNat * 2 % 256 = 0) ∧
  t.flag .n = (BitVec.ofNat 8 (m.toNat * 2)).getLsbD 7 ∧
  FlagsKept s t [.c, .z, .n]

/-- What ASL of the byte m at the effective address ea leaves (42_asl.md R131): the doubled byte at ea, every other
address as it was, no register but p and pc changed, no device moved and nothing reported. -/
def AslMemoryEffect (s : State) (ea : Addr) (m : Byte) (len : Nat) (t : State) : Prop :=
  (s.wf = true → t.byteAt ea = some (BitVec.ofNat 8 (m.toNat * 2))) ∧
  (∀ w, w ≠ ea → t.byteAt w = s.byteAt w) ∧
  AslFlags s m t ∧
  t.pc = s.pc + BitVec.ofNat 16 len ∧
  t.a = s.a ∧ t.x = s.x ∧ t.y = s.y ∧ t.sp = s.sp ∧ t.status = s.status ∧ t.reports = s.reports ∧
  t.layout = s.layout

/-- The state after a branch: pc0 + 2, plus the signed offset if taken, mod 65536; nothing else changes
(43_branches.md R140). -/
def branched (s : State) (taken : Bool) (off : Byte) : State :=
  { s with pc := BitVec.ofInt 16 (s.pc.toNat + 2 + if taken then off.toInt else 0) }

/-- The flags each mnemonic names as written (10_state.md R27). -/
def flagsWritten : Mnemonic → List Flag
  | .adc => [.c, .z, .v, .n]
  | .and => [.z, .n]
  | .asl => [.c, .z, .n]
  | .cmp => [.c, .z, .n]
  | .bit => [.z, .v, .n]
  | .clc => [.c]
  | .cld => [.d]
  | .cli => [.i]
  | .clv => [.v]
  | .bcc | .bcs | .beq | .bmi | .bne | .bpl | .bvc | .bvs | .brk => []

/-- Whether the instruction's result is a register value: ADC, AND and ASL A (10_state.md R23, R30). -/
def producesRegister : Instr → Bool
  | .aslAcc => true
  | i => i.kind == .adc || i.kind == .and

/-- The device's range holds the address (20_memory.md R49). -/
def InRange (d : Device) (w : Addr) : Prop :=
  d.addressSpace.1 ≤ w.toNat ∧ w.toNat < d.addressSpace.2

/-- How many slots each mnemonic has (30_encoding.md R81). -/
def slotCount : Mnemonic → Nat
  | .adc | .and | .cmp => 8
  | .asl => 5
  | .bit => 2
  | .bcc | .bcs | .beq | .bmi | .bne | .bpl | .bvc | .bvs | .clc | .cld | .cli | .clv | .brk => 1

/-- Two outcomes that agree but for the bits I, D, B and 7 of p: the same fault, or next states with C, Z, V, N alike
and everything but p alike. -/
def AgreeButUnreadBits : Host.Outcome State Fault Refusal → Host.Outcome State Fault Refusal → Prop
  | .next t, .next t' => t'.p &&& 0x63 = t.p &&& 0x63 ∧ { t' with p := t.p } = t
  | .fault f, .fault f' => f = f'
  | .refused r, .refused r' => r = r'
  | _, _ => False

end Sys2Proof.Claims

open Sys2Proof.Claims

/-! Encoding. -/

/-- Decoding the encoding of a well-formed instruction, with any bytes after it, gives the instruction and leaves those
bytes: for every constructor and every operand (30_encoding.md sections 1 and 2; the opcode bytes are D17's). -/
def Obligations.DecodeOfEncodeIsTheInstruction : Prop :=
  ∀ (i : Instr) (rest : List Byte), i.wellFormed = true → decode (encode i ++ rest) = .ok (i, rest)

/-- What decodes is the encoding of what it decodes to, and that instruction is well formed: no byte has two readings
and none is dropped (30_encoding.md sections 1 to 3; the opcode bytes are D17's). -/
def Obligations.EncodeOfDecodeIsTheBytes : Prop :=
  ∀ (bytes rest : List Byte) (i : Instr), decode bytes = .ok (i, rest) →
    i.wellFormed = true ∧ bytes = encode i ++ rest

/-- The opcode table: 44 of the 256 opcode bytes have a slot, no two rows share a byte, the counts per mnemonic are
R81's, each row builds an instruction of its own mnemonic and mode, and every record read is well formed (its mnemonic
takes its mode, its length is one more than its operand bytes). The bytes and forms are the spec's decision D17. -/
def Obligations.OpcodeTableHas44WellFormedSlots : Prop :=
  ((List.range 256).filter (fun n => (lookup (BitVec.ofNat 8 n)).isSome)).length = 44 ∧
  (opTable.map Row.opcode).Nodup ∧
  (∀ k, (opTable.filter (fun r => r.kind == k)).length = slotCount k) ∧
  (∀ r ∈ opTable, ∀ lo hi, (r.build lo hi).kind = r.kind ∧ (r.build lo hi).mode = r.mode) ∧
  (∀ op r, lookup op = some r → r.wellFormed = true)

/-- A few words written out from 30_encoding.md R75 and R81 decode to the instructions they stand for, and 0xFF, 0x02
and 0xA9 have an empty slot (95_test_vectors.md 2.8; the bytes are D17's). -/
def Obligations.HandWrittenWordsDecode : Prop :=
  decode [0x69, 0x01] = .ok (.adcImm 0x01, []) ∧
  decode [0x6D, 0x34, 0x12] = .ok (.adcAbs 0x1234, []) ∧
  decode [0x35, 0xF8] = .ok (.andZpX 0xF8, []) ∧
  decode [0xD9, 0x01, 0x20] = .ok (.cmpAbsY 0x2001, []) ∧
  decode [0x0A, 0x90] = .ok (.aslAcc, [0x90]) ∧
  decode [0x2C, 0x00, 0x02] = .ok (.bitAbs 0x0200, []) ∧
  decode [0xF0, 0xFE] = .ok (.beq 0xFE, []) ∧
  decode [0xB8] = .ok (.clv, []) ∧
  decode [0x00] = .ok (.brk, []) ∧
  decode [0xFF, 0x00] = .error (.emptySlot 0xFF) ∧
  decode [0x02] = .error (.emptySlot 0x02) ∧
  decode [0xA9, 0x00] = .error (.emptySlot 0xA9)

/-! The step. -/

/-- A STEP RUNS THE DECODED INSTRUCTION: on a running machine, when mapped bytes at pc decode to an instruction, the
step is that instruction's execution, and nothing is added around it (40_pipeline_and_addressing.md section 1). -/
def Obligations.StepRunsDecodedInstruction : Prop :=
  ∀ (s : State) (bytes rest : List Byte) (i : Instr), s.status = .running → s.holdsAt s.pc bytes →
    decode bytes = .ok (i, rest) → step s = exec i s

/-- An instruction the host has loaded at pc of a running machine runs: the stores are seen by the fetch
(20_memory.md section 6; 70_reset_and_hazards.md section 2; an inference the spec marks as its own). -/
def Obligations.LoadedInstructionRuns : Prop :=
  ∀ (s : State) (i : Instr), s.status = .running → s.wf = true →
    (∀ k < (encode i).length, (s.byteAt (s.pc + BitVec.ofNat 16 k)).isSome = true) →
    step (s.loadImage s.pc (encode i)) = exec i (s.loadImage s.pc (encode i))

/-- The order of faults in a tick: fetch, decode, an Indirect mode before any operand read, the operand bytes in address
order (a branch's offset whether or not it is taken), the operand value, BRK (60_exceptions.md section 2; the order is
the spec's inference from its decision D28, the faults its D5, D11, D14, D16 and D17). -/
def Obligations.FaultsComeInStageOrder : Prop :=
  ∀ s : State, s.status = .running →
    (s.byteAt s.pc = none → step s = .fault (.unmappedRead s.pc)) ∧
    ∀ op, s.byteAt s.pc = some op →
      (lookup op = none → step s = .fault (.unknownOpcode s.pc op)) ∧
      ∀ r, lookup op = some r →
        (∀ j, r.mode = .indirect j → step s = .fault (.unsupportedAddressingMode s.pc op (.indirect j))) ∧
        (r.mode = .immediate ∨ r.mode = .relative ∨ (∃ j, r.mode = .zeroPage j) ∨ (∃ j, r.mode = .absolute j) →
          s.byteAt (s.pc + 1) = none → step s = .fault (.unmappedRead (s.pc + 1))) ∧
        (∀ j lo, r.mode = .absolute j → s.byteAt (s.pc + 1) = some lo → s.byteAt (s.pc + 2) = none →
          step s = .fault (.unmappedRead (s.pc + 2))) ∧
        (∀ j z, r.mode = .zeroPage j → s.byteAt (s.pc + 1) = some z → s.byteAt (eaZeroPage s j z) = none →
          step s = .fault (.unmappedRead (eaZeroPage s j z))) ∧
        (∀ j lo hi, r.mode = .absolute j → s.byteAt (s.pc + 1) = some lo → s.byteAt (s.pc + 2) = some hi →
          s.byteAt (eaAbsolute s j (joinBytes lo hi)) = none →
          step s = .fault (.unmappedRead (eaAbsolute s j (joinBytes lo hi)))) ∧
        (r.kind = .brk → step s = .fault (.unsupportedInstruction s.pc 0x00))

/-- Faults are precise: on a running machine a fault names the opcode's own address and byte, and for what reason, or
the unmapped address read (60_exceptions.md sections 1 and 2; the inference of precision is the spec's own). -/
def Obligations.FaultNamesItsCause : Prop :=
  ∀ (s : State) (f : Fault), s.status = .running → step s = .fault f →
    match f with
    | .unknownOpcode w b => w = s.pc ∧ s.byteAt s.pc = some b ∧ lookup b = none
    | .unsupportedAddressingMode w b m =>
      w = s.pc ∧ s.byteAt s.pc = some b ∧ (∃ r, lookup b = some r ∧ r.mode = m) ∧
        (m = .indirect .x ∨ m = .indirect .y)
    | .unsupportedInstruction w b => w = s.pc ∧ s.byteAt s.pc = some b ∧ b = 0x00
    | .unmappedRead w => s.byteAt w = none

/-- A tick that faults leaves every register, flag, cell and the report log as they were, and halts the machine with
the fault; a tick that goes on leaves the machine running (60_exceptions.md section 2; 92_eei_decisions.md D19: the state
after a fault is the spec's own decision). -/
def Obligations.FaultingTickOnlyHalts : Prop :=
  (∀ (s : State) (f : Fault), step s = .fault f →
    tickState s = { s with status := .halted f } ∧ (tickState s).dumpRegisters = s.dumpRegisters ∧
      ∀ w, (tickState s).hostRead w = s.hostRead w) ∧
  (∀ s t : State, step s = .next t → tickState s = t ∧ t.status = .running)

/-- A halted machine answers its fault at every later tick and never changes again (40_pipeline_and_addressing.md
section 1; 92_eei_decisions.md D33: the spec's own decision). -/
def Obligations.HaltedMachineRepeatsItsFault : Prop :=
  ∀ (s : State) (f : Fault) (n : Nat), s.status = .halted f → step (ticks n s) = .fault f ∧ ticks n s = s

/-- No step is refused: every opcode of the table has its meaning, and every other byte its fault
(30_encoding.md section 3). -/
def Obligations.StepNeverRefuses : Prop :=
  ∀ (s : State) (e : Refusal), step s ≠ .refused e

/-! Results, completion and frames, instruction by instruction. -/

/-- ADC goes on in each of its six executing forms where its operand is readable: the sum mod 256 in a, C set when the
sum exceeds 255 (R121), V by the two's-complement test (R122), Z and N from the result, pc past the instruction (the net
advance is the spec's decision D9), and nothing else changed. -/
def Obligations.AdcAddsWithCarry : Prop :=
  ∀ s, EveryReadForm .adcImm .adcZp .adcZpX .adcAbs .adcAbsX .adcAbsY s (AdcEffect s)

/-- V after ADC is set exactly when the signed sum of accumulator, operand and carry leaves -128 to 127: the
"standard two's-complement overflow test" (41_adc_and.md section 1). -/
def Obligations.AdcOverflowIsSignedOverflow : Prop :=
  ∀ (a m : Byte) (c : Bool),
    adcOverflow a m c = true ↔ a.toInt + m.toInt + c.toNat < -128 ∨ 127 < a.toInt + m.toInt + c.toNat

/-- AND goes on in each of its six executing forms where its operand is readable (41_adc_and.md section 3). -/
def Obligations.AndMasksTheAccumulator : Prop :=
  ∀ s, EveryReadForm .andImm .andZp .andZpX .andAbs .andAbsX .andAbsY s (AndEffect s)

/-- CMP goes on in each of its six executing forms where its operand is readable (45_bit_cmp_brk.md; the semantics are
the spec's decision D15, from general knowledge). -/
def Obligations.CmpComparesUnsigned : Prop :=
  ∀ s, EveryReadForm .cmpImm .cmpZp .cmpZpX .cmpAbs .cmpAbsX .cmpAbsY s (CmpEffect s)

/-- BIT goes on in both its forms where its operand is readable (45_bit_cmp_brk.md; the semantics are the spec's
decision D15, from general knowledge). -/
def Obligations.BitTestsTheOperand : Prop :=
  ∀ s : State,
    (∀ z m, s.byteAt (eaZeroPage s .none z) = some m → ∃ t, exec (.bitZp z) s = .next t ∧ BitEffect s m 2 t) ∧
    (∀ b m, s.byteAt (eaAbsolute s .none b) = some m → ∃ t, exec (.bitAbs b) s = .next t ∧ BitEffect s m 3 t)

/-- ASL A (R130): opcode 0x0A, one byte; it always goes on, doubles the accumulator mod 256, moves bit 7 into C, sets Z
and N from the result, and changes nothing else. -/
def Obligations.AslAccumulatorDoubles : Prop :=
  encode .aslAcc = [0x0A] ∧
  (∀ rest, decode (0x0A :: rest) = .ok (.aslAcc, rest)) ∧
  ∀ s : State, ∃ t, exec .aslAcc s = .next t ∧
    t.a.toNat = s.a.toNat * 2 % 256 ∧ AslFlags s s.a t ∧ t.pc = s.pc + 1 ∧ RestKept s t

/-- ASL on memory goes on in each of its four forms where its operand is readable, and stores the doubled byte at the
effective address it read and nowhere else (42_asl.md; Z and N on this form are the spec's decision D18, the single
write its D26). -/
def Obligations.AslMemoryDoublesInPlace : Prop :=
  ∀ s : State,
    (∀ z m, s.byteAt (eaZeroPage s .none z) = some m →
      ∃ t, exec (.aslZp z) s = .next t ∧ AslMemoryEffect s (eaZeroPage s .none z) m 2 t) ∧
    (∀ z m, s.byteAt (eaZeroPage s .x z) = some m →
      ∃ t, exec (.aslZpX z) s = .next t ∧ AslMemoryEffect s (eaZeroPage s .x z) m 2 t) ∧
    (∀ b m, s.byteAt (eaAbsolute s .none b) = some m →
      ∃ t, exec (.aslAbs b) s = .next t ∧ AslMemoryEffect s (eaAbsolute s .none b) m 3 t) ∧
    (∀ b m, s.byteAt (eaAbsolute s .x b) = some m →
      ∃ t, exec (.aslAbsX b) s = .next t ∧ AslMemoryEffect s (eaAbsolute s .x b) m 3 t)

/-- Each branch goes on: it tests its flag with its polarity, goes to pc0 + 2 plus the signed offset if that holds and
to pc0 + 2 if not, mod 65536, and changes nothing but pc (43_branches.md; the base pc0 + 2 is the spec's decision D14,
and the flags of all but BEQ are from general knowledge). -/
def Obligations.BranchesGoByTheirFlag : Prop :=
  ∀ (s : State) (off : Byte),
    exec (.bcc off) s = .next (branched s (!s.flag .c) off) ∧
    exec (.bcs off) s = .next (branched s (s.flag .c) off) ∧
    exec (.beq off) s = .next (branched s (s.flag .z) off) ∧
    exec (.bmi off) s = .next (branched s (s.flag .n) off) ∧
    exec (.bne off) s = .next (branched s (!s.flag .z) off) ∧
    exec (.bpl off) s = .next (branched s (!s.flag .n) off) ∧
    exec (.bvc off) s = .next (branched s (!s.flag .v) off) ∧
    exec (.bvs off) s = .next (branched s (s.flag .v) off)

/-- The flag clears (R160 to R163): their one-byte encodings, and that each always goes on, clears its own bit of p by
the rule's mask, moves pc by one and changes nothing else. -/
def Obligations.FlagClearsClearOneBit : Prop :=
  (encode .clc = [0x18] ∧ encode .cld = [0xD8] ∧ encode .cli = [0x58] ∧ encode .clv = [0xB8]) ∧
  (∀ rest, decode (0x18 :: rest) = .ok (.clc, rest) ∧ decode (0xD8 :: rest) = .ok (.cld, rest) ∧
    decode (0x58 :: rest) = .ok (.cli, rest) ∧ decode (0xB8 :: rest) = .ok (.clv, rest)) ∧
  ∀ s : State,
    exec .clc s = .next { s with p := s.p &&& 0xFE, pc := s.pc + 1 } ∧
    exec .cld s = .next { s with p := s.p &&& 0xF7, pc := s.pc + 1 } ∧
    exec .cli s = .next { s with p := s.p &&& 0xFB, pc := s.pc + 1 } ∧
    exec .clv s = .next { s with p := s.p &&& 0xDF, pc := s.pc + 1 }

/-- BRK and the six Indirect forms stop on every path, each with its own fault, whatever stands in memory
(45_bit_cmp_brk.md and 40_pipeline_and_addressing.md section 2; the spec's decisions D16 and D11). -/
def Obligations.BrkAndIndirectFormsStop : Prop :=
  ∀ (s : State) (z : Byte),
    exec .brk s = .fault (.unsupportedInstruction s.pc 0x00) ∧
    exec (.adcIndX z) s = .fault (.unsupportedAddressingMode s.pc 0x61 (.indirect .x)) ∧
    exec (.adcIndY z) s = .fault (.unsupportedAddressingMode s.pc 0x71 (.indirect .y)) ∧
    exec (.andIndX z) s = .fault (.unsupportedAddressingMode s.pc 0x21 (.indirect .x)) ∧
    exec (.andIndY z) s = .fault (.unsupportedAddressingMode s.pc 0x31 (.indirect .y)) ∧
    exec (.cmpIndX z) s = .fault (.unsupportedAddressingMode s.pc 0xC1 (.indirect .x)) ∧
    exec (.cmpIndY z) s = .fault (.unsupportedAddressingMode s.pc 0xD1 (.indirect .y))

/-- A memory form whose effective address no device maps traps: UnmappedRead of that address (20_memory.md section 4;
the fault is the spec's decision D5). -/
def Obligations.UnmappedOperandTraps : Prop :=
  ∀ s : State,
    (∀ z, s.byteAt (eaZeroPage s .none z) = none →
      ∀ i ∈ [Instr.adcZp z, .andZp z, .cmpZp z, .aslZp z, .bitZp z],
        exec i s = .fault (.unmappedRead (eaZeroPage s .none z))) ∧
    (∀ z, s.byteAt (eaZeroPage s .x z) = none →
      ∀ i ∈ [Instr.adcZpX z, .andZpX z, .cmpZpX z, .aslZpX z],
        exec i s = .fault (.unmappedRead (eaZeroPage s .x z))) ∧
    (∀ b, s.byteAt (eaAbsolute s .none b) = none →
      ∀ i ∈ [Instr.adcAbs b, .andAbs b, .cmpAbs b, .aslAbs b, .bitAbs b],
        exec i s = .fault (.unmappedRead (eaAbsolute s .none b))) ∧
    (∀ b, s.byteAt (eaAbsolute s .x b) = none →
      ∀ i ∈ [Instr.adcAbsX b, .andAbsX b, .cmpAbsX b, .aslAbsX b],
        exec i s = .fault (.unmappedRead (eaAbsolute s .x b))) ∧
    (∀ b, s.byteAt (eaAbsolute s .y b) = none →
      ∀ i ∈ [Instr.adcAbsY b, .andAbsY b, .cmpAbsY b],
        exec i s = .fault (.unmappedRead (eaAbsolute s .y b)))

/-- Every instruction that produces a register value (ADC, AND and ASL A) sets Z and N from it (10_state.md section 2,
the Zero and Negative rules), and no other instruction changes the accumulator (10_state.md section 1, the table of
readers and writers: an inference the spec marks as its own). -/
def Obligations.RegisterResultsSetZeroAndNegative : Prop :=
  ∀ (i : Instr) (s t : State), exec i s = .next t →
    if producesRegister i then t.flag .z = decide (t.a = 0) ∧ t.flag .n = t.a.getLsbD 7 else t.a = s.a

/-- Bits of p that an instruction does not name as written keep their value, for every instruction in every state; and
bit 7 keeps its value over every run (R26). Which flags each mnemonic names as written is `flagsWritten`, after the
table of R27, which the spec marks as its own inference from its instruction rules. -/
def Obligations.UnnamedStatusBitsAreKept : Prop :=
  (∀ (i : Instr) (s t : State), exec i s = .next t → FlagsKept s t (flagsWritten i.kind)) ∧
  (∀ (n : Nat) (s t : State), Host.Core.run core n s = .next t → t.p.getLsbD 7 = s.p.getLsbD 7)

/-! The resolver. -/

/-- Accumulator mode (R95): the operand is the accumulator's current value, whatever the devices hold, and no operand
byte is read; and the index selection every indexed mode uses (R100). -/
def Obligations.AccumulatorAndIndexSelection : Prop :=
  ∀ (s : State) (ds : List Device),
    resolveAccumulator { s with devices := ds } = { loc := .acc, value := s.a, extra := 0 } ∧
    fetchOperands { s with devices := ds } .accumulator = .ok (0, 0) ∧
    s.index .none = 0 ∧ s.index .x = s.x ∧ s.index .y = s.y

/-- ZeroPage mode (40_pipeline_and_addressing.md section 2): one operand byte read at pc0 + 1, the effective address its
sum with the index register mod 256, and the operand the byte there, with no extra cycles. That either read faults with
UnmappedRead where no device maps it is the spec's decision D5 (20_memory.md section 4, 60_exceptions.md section 1; log
entry 11). -/
def Obligations.ZeroPageResolves : Prop :=
  ∀ (s : State) (j : Index) (z : Byte),
    (eaZeroPage s j z).toNat = (z.toNat + (s.index j).toNat) % 256 ∧
    (s.byteAt (s.pc + 1) = some z → fetchOperands s (.zeroPage j) = .ok (z, 0)) ∧
    (s.byteAt (s.pc + 1) = none → fetchOperands s (.zeroPage j) = .error (.unmappedRead (s.pc + 1))) ∧
    (∀ v, s.byteAt (eaZeroPage s j z) = some v →
      resolveZeroPage s j z = .ok { loc := .mem (eaZeroPage s j z), value := v, extra := 0 }) ∧
    (s.byteAt (eaZeroPage s j z) = none → resolveZeroPage s j z = .error (.unmappedRead (eaZeroPage s j z)))

/-- Absolute mode: two operand bytes read at pc0 + 1 and pc0 + 2, low byte first, the effective address their value
plus the index register mod 65536, and the operand the byte there (40_pipeline_and_addressing.md section 2; byte order
and wrap are the spec's decisions D7 and D8). -/
def Obligations.AbsoluteResolves : Prop :=
  ∀ (s : State) (j : Index) (lo hi : Byte),
    (eaAbsolute s j (joinBytes lo hi)).toNat = (hi.toNat * 256 + lo.toNat + (s.index j).toNat) % 65536 ∧
    (s.byteAt (s.pc + 1) = some lo → s.byteAt (s.pc + 2) = some hi →
      fetchOperands s (.absolute j) = .ok (lo, hi)) ∧
    (∀ v, s.byteAt (eaAbsolute s j (joinBytes lo hi)) = some v →
      resolveAbsolute s j (joinBytes lo hi) =
        .ok { loc := .mem (eaAbsolute s j (joinBytes lo hi)), value := v, extra := 0 })

/-- With x = y = 0 every indexed form is its unindexed form, and a run that starts so stays so: what a program started
from reset always sees (10_state.md section 1; an inference the spec marks as its own). -/
def Obligations.IndexedFormsAreUnindexedFromReset : Prop :=
  (∀ (s : State) (z : Byte) (b : Addr), s.x = 0 → s.y = 0 →
    exec (.adcZpX z) s = exec (.adcZp z) s ∧ exec (.andZpX z) s = exec (.andZp z) s ∧
    exec (.cmpZpX z) s = exec (.cmpZp z) s ∧ exec (.aslZpX z) s = exec (.aslZp z) s ∧
    exec (.adcAbsX b) s = exec (.adcAbs b) s ∧ exec (.andAbsX b) s = exec (.andAbs b) s ∧
    exec (.cmpAbsX b) s = exec (.cmpAbs b) s ∧ exec (.aslAbsX b) s = exec (.aslAbs b) s ∧
    exec (.adcAbsY b) s = exec (.adcAbs b) s ∧ exec (.andAbsY b) s = exec (.andAbs b) s ∧
    exec (.cmpAbsY b) s = exec (.cmpAbs b) s) ∧
  (∀ (n : Nat) (s t : State), s.x = 0 → s.y = 0 → Host.Core.run core n s = .next t → t.x = 0 ∧ t.y = 0)

/-! Memory and the Bus. -/

/-- The Bus selects the first device, in insertion order, whose range holds the address, and none where no range does;
ranges may overlap, the first answers both reads and writes, and a write leaves every other device as it was
(R49, R50). -/
def Obligations.BusSelectsTheFirstDeviceInRange : Prop :=
  ∀ (ds : List Device) (w : Addr),
    (busSelect ds w = none ↔ ∀ d ∈ ds, ¬InRange d w) ∧
    (∀ d, busSelect ds w = some d ↔
      ∃ before after, ds = before ++ d :: after ∧ InRange d w ∧ ∀ e ∈ before, ¬InRange e w) ∧
    (∀ before d after v, ds = before ++ d :: after → InRange d w → (∀ e ∈ before, ¬InRange e w) →
      busRead ds w = d.read w ∧ busWrite ds w v = (d.write w v).map (fun d' => before ++ d' :: after))

/-- A device is defined only for addresses in its own range and refuses any other call, and the Bus never makes such a
call: the device it selects is defined for the address (R42). -/
def Obligations.DeviceIsDefinedOnlyInItsRange : Prop :=
  (∀ (d : Device) (w : Addr) (v : Byte),
    ((d.read w).isSome = true ↔ InRange d w) ∧ ((d.write w v).isSome = true ↔ InRange d w)) ∧
  (∀ (ds : List Device) (w : Addr) (d : Device) (v : Byte), busSelect ds w = some d →
    (d.read w).isSome = true ∧ (d.write w v).isSome = true)

/-- A device's cell is its address minus its base: it reads and writes that cell and no other, for any base
(20_memory.md section 3; the fixed range and indexing are the spec's decision D4). -/
def Obligations.DeviceCellIsAddressMinusBase : Prop :=
  ∀ (d : Device) (w : Addr) (v : Byte), d.base ≤ w.toNat → w.toNat < d.base + d.size →
    d.read w = some (Memory.read d.cells (w.toNat - d.base)) ∧
    ∃ d', d.write w v = some d' ∧ d'.addressSpace = d.addressSpace ∧
      (d.wf = true → d'.wf = true ∧ Memory.read d'.cells (w.toNat - d.base) = v) ∧
      ∀ k, k ≠ w.toNat - d.base → Memory.read d'.cells k = Memory.read d.cells k

/-- Round trip (R54): a write to a mapped address, then any writes elsewhere, then a read of it gives the byte written,
in every state whose memory is in canonical form. -/
def Obligations.WriteThenReadRoundTrips : Prop :=
  ∀ (s : State) (w : Addr) (v : Byte) (others : List (Addr × Byte)), s.wf = true → (s.byteAt w).isSome = true →
    (∀ o ∈ others, o.1 ≠ w) →
    (others.foldl (fun u o => u.memWrite o.1 o.2) (s.memWrite w v)).byteAt w = some v

/-- A write to an unmapped address changes no cell and appends one report; a write to a mapped one reports nothing; and
the host reads an unmapped address as unmapped (20_memory.md section 4; the spec's decisions D6 and D29). -/
def Obligations.UnroutedWriteIsReported : Prop :=
  ∀ (s : State) (w : Addr) (v : Byte),
    (s.hostRead w = none →
      s.hostWrite w v = { s with reports := s.reports ++ [.unroutedWrite w v] }) ∧
    ((s.hostRead w).isSome = true → (s.hostWrite w v).reports = s.reports ∧
      (s.hostWrite w v).layout = s.layout ∧ ∀ u, u ≠ w → (s.hostWrite w v).hostRead u = s.hostRead u)

/-! Invariants. -/

/-- Every step keeps memory in its canonical form, in every state (20_memory.md section 3: a cell holds one byte; the
form is the model's). -/
def Obligations.StepKeepsMemoryCanonical : Prop :=
  ∀ s t : State, s.wf = true → step s = .next t → t.wf = true

/-- The state after reset has its memory in canonical form (the form is the model's). -/
def Obligations.ResetMemoryIsCanonical : Prop :=
  State.reset.wf = true

/-- What no step changes: sp, x, y, the report log, the B flag, bit 7 of p, and the devices' ranges; and the machine
stays running (10_state.md sections 1 and 2; 60_exceptions.md section 1; inferences the spec marks as its own). -/
def Obligations.StepKeepsWhatNoInstructionWrites : Prop :=
  ∀ s t : State, step s = .next t →
    t.sp = s.sp ∧ t.x = s.x ∧ t.y = s.y ∧ t.reports = s.reports ∧ t.flag .b = s.flag .b ∧
    t.p.getLsbD 7 = s.p.getLsbD 7 ∧ t.layout = s.layout ∧ t.status = .running

/-- I and D are never set, by any step (10_state.md section 2; the table of writers is an inference the spec marks as
its own). -/
def Obligations.StepNeverSetsInterruptOrDecimal : Prop :=
  ∀ s t : State, step s = .next t →
    (t.flag .i = true → s.flag .i = true) ∧ (t.flag .d = true → s.flag .d = true)

/-- The stack pointer is neither read nor written (R22): changing it changes nothing a step does but the stack pointer
itself, no step changes it, and the register dump alone shows it. -/
def Obligations.StackPointerIsNeitherReadNorWritten : Prop :=
  (∀ (s : State) (v : Byte), step { s with sp := v } = mapNext (fun t => { t with sp := v }) (step s)) ∧
  (∀ s t : State, step s = .next t → t.sp = s.sp) ∧
  (∀ (s : State) (v : Byte), { s with sp := v }.dumpRegisters = { s.dumpRegisters with sp := v } ∧
    ∀ w, { s with sp := v }.hostRead w = s.hostRead w) ∧
  (∀ (r : Registers) (ds : List Device), (State.construct r ds).dumpRegisters = r)

/-- I, D, B and bit 7 of p are read by nothing: two states that differ in those bits alone take steps that agree but
for those bits (10_state.md section 2, and so ADC is binary whatever D holds; the spec's decisions D13 and D32). -/
def Obligations.InterruptDecimalBreakAndBit7AreNeverRead : Prop :=
  ∀ (s : State) (q : Byte),
    AgreeButUnreadBits (step s) (step { s with p := (s.p &&& 0x63) ||| (q &&& 0x9C) })

/-! Reset. -/

/-- Reset is construction: whatever the devices, every register is 0, the machine is running, the report log is empty,
and there is no reset vector: the first tick fetches at 0x0000 (10_state.md section 5; 70_reset_and_hazards.md section 1;
the values are the spec's decision D2, the missing vector its D22, the default device its D4). -/
def Obligations.ResetIsConstruction : Prop :=
  State.reset = State.construct Registers.reset defaultDevices ∧
  defaultDevices.map Device.addressSpace = [(0x0000, 0x7FFF)] ∧
  ∀ ds : List Device,
    let s := State.construct Registers.reset ds
    s.dumpRegisters = { pc := 0x0000, sp := 0x00, a := 0x00, x := 0x00, y := 0x00, p := 0x00 } ∧
    s.status = .running ∧ s.reports = [] ∧ s.devices = ds ∧
    (busRead ds 0x0000 = none → step s = .fault (.unmappedRead 0x0000)) ∧
    (∀ op, busRead ds 0x0000 = some op → lookup op = none → step s = .fault (.unknownOpcode 0x0000 op))
end

