-- ==== Sys2Proof/Laws/Memory.lean ====
section
/-! SUPPORT. What a cell reads as after a write, and that every memory operation keeps the canonical form. -/

namespace Sys2Proof.Machine

/-- A bound below the first index may be lowered. -/
theorem Memory.wfFrom_mono {lo lo' : Nat} {m : Memory} (h : Memory.wfFrom lo m = true) (hl : lo' ≤ lo) :
    Memory.wfFrom lo' m = true := by
  cases m with
  | nil => rfl
  | cons c rest =>
    obtain ⟨k, b⟩ := c
    simp only [Memory.wfFrom, Bool.and_eq_true, decide_eq_true_eq] at h ⊢
    exact ⟨⟨by omega, h.1.2⟩, h.2⟩

/-- A cell below every listed index is unlisted. -/
theorem Memory.read_of_lt {lo j : Nat} {m : Memory} (h : Memory.wfFrom lo m = true) (hj : j < lo) :
    Memory.read m j = Config.unlistedByte := by
  induction m generalizing lo with
  | nil => rfl
  | cons c rest ih =>
    obtain ⟨k, b⟩ := c
    simp only [Memory.wfFrom, Bool.and_eq_true, decide_eq_true_eq] at h
    rw [Memory.read, if_neg (by omega)]
    exact ih h.2 (by omega)

/-- Reading past an entry put at the head. -/
theorem Memory.read_cons_ne {j i : Nat} (v : Byte) (m : Memory) (h : i ≠ j) :
    Memory.read (Memory.cons j v m) i = Memory.read m i := by
  unfold Memory.cons
  split
  · rfl
  · rw [Memory.read, if_neg (Ne.symm h)]

/-- Reading the entry put at the head, where the rest does not list it. -/
theorem Memory.read_cons_self {j : Nat} (v : Byte) {m : Memory} (h : Memory.read m j = Config.unlistedByte) :
    Memory.read (Memory.cons j v m) j = v := by
  unfold Memory.cons
  split
  · rename_i hv; rw [h, hv]
  · rw [Memory.read, if_pos rfl]

/-- A write leaves every other cell as it was, in every memory (20_memory.md R58, "A write sets the one cell"). -/
theorem Memory.read_write_ne {j i : Nat} (m : Memory) (v : Byte) (h : i ≠ j) :
    Memory.read (Memory.write m j v) i = Memory.read m i := by
  induction m with
  | nil => exact Memory.read_cons_ne v [] h
  | cons c rest ih =>
    obtain ⟨k, b⟩ := c
    rw [Memory.write]
    split
    · exact Memory.read_cons_ne v _ h
    · split
      · rename_i hk
        rw [Memory.read_cons_ne v _ h, Memory.read, if_neg (by omega)]
      · rw [Memory.read, Memory.read, ih]

/-- A write is read back, in a memory in canonical form. -/
theorem Memory.read_write_self {lo j : Nat} {m : Memory} (v : Byte) (h : Memory.wfFrom lo m = true) :
    Memory.read (Memory.write m j v) j = v := by
  induction m generalizing lo with
  | nil => exact Memory.read_cons_self v rfl
  | cons c rest ih =>
    obtain ⟨k, b⟩ := c
    have h' := h
    simp only [Memory.wfFrom, Bool.and_eq_true, decide_eq_true_eq] at h'
    rw [Memory.write]
    split
    · rename_i hk
      have hw : Memory.wfFrom (j + 1) ((k, b) :: rest) = true := by
        simp only [Memory.wfFrom, Bool.and_eq_true, decide_eq_true_eq]
        exact ⟨⟨by omega, h'.1.2⟩, h'.2⟩
      exact Memory.read_cons_self v (Memory.read_of_lt hw (by omega))
    · split
      · rename_i hk
        exact Memory.read_cons_self v (Memory.read_of_lt h'.2 (by omega))
      · rename_i hk
        rw [Memory.read, if_neg (by omega)]
        exact ih h'.2

/-- Putting an entry at the head keeps the canonical form. -/
theorem Memory.wfFrom_cons {lo j : Nat} (v : Byte) {m : Memory} (hl : lo ≤ j)
    (h : Memory.wfFrom (j + 1) m = true) : Memory.wfFrom lo (Memory.cons j v m) = true := by
  unfold Memory.cons
  split
  · exact Memory.wfFrom_mono h (by omega)
  · rename_i hv
    simp only [Memory.wfFrom, Bool.and_eq_true, decide_eq_true_eq]
    exact ⟨⟨hl, hv⟩, h⟩

/-- A write keeps the canonical form above a bound. -/
theorem Memory.wfFrom_write {lo j : Nat} {m : Memory} (v : Byte) (hl : lo ≤ j)
    (h : Memory.wfFrom lo m = true) : Memory.wfFrom lo (Memory.write m j v) = true := by
  induction m generalizing lo with
  | nil => exact Memory.wfFrom_cons v hl rfl
  | cons c rest ih =>
    obtain ⟨k, b⟩ := c
    have h' := h
    simp only [Memory.wfFrom, Bool.and_eq_true, decide_eq_true_eq] at h'
    rw [Memory.write]
    split
    · rename_i hk
      apply Memory.wfFrom_cons v hl
      simp only [Memory.wfFrom, Bool.and_eq_true, decide_eq_true_eq]
      exact ⟨⟨by omega, h'.1.2⟩, h'.2⟩
    · split
      · rename_i hk
        subst hk
        exact Memory.wfFrom_cons v hl h'.2
      · rename_i hk hk'
        simp only [Memory.wfFrom, Bool.and_eq_true, decide_eq_true_eq]
        exact ⟨⟨h'.1.1, h'.1.2⟩, ih (by omega) h'.2⟩

/-- A write keeps the canonical form. -/
theorem Memory.wf_write {m : Memory} (j : Nat) (v : Byte) (h : Memory.wf m = true) :
    Memory.wf (Memory.write m j v) = true :=
  Memory.wfFrom_write v (Nat.zero_le j) h

/-- An entry of a written memory is an old one or the one written. -/
theorem Memory.mem_write {j : Nat} {v : Byte} {m : Memory} {c : Host.Cell} (h : c ∈ Memory.write m j v) :
    c ∈ m ∨ c = (j, v) := by
  have hc : ∀ m' : Memory, c ∈ Memory.cons j v m' → c ∈ m' ∨ c = (j, v) := by
    intro m' hm
    unfold Memory.cons at hm
    split at hm
    · exact .inl hm
    · rcases List.mem_cons.mp hm with h | h
      · exact .inr h
      · exact .inl h
  induction m with
  | nil => exact hc [] h
  | cons d rest ih =>
    obtain ⟨k, b⟩ := d
    rw [Memory.write] at h
    split at h
    · exact hc _ h
    · split at h
      · rcases hc _ h with h | h
        · exact .inl (List.mem_cons_of_mem _ h)
        · exact .inr h
      · rcases List.mem_cons.mp h with h | h
        · exact .inl (h ▸ List.mem_cons_self)
        · rcases ih h with h | h
          · exact .inl (List.mem_cons_of_mem _ h)
          · exact .inr h

end Sys2Proof.Machine
end

