-- ==== Sys2Proof/Laws/State.lean ====
section
/-! SUPPORT. One lemma per field of `State` per update, each true by unfolding the update once. -/

namespace Sys2Proof.Machine

/-! `setA`. -/

@[simp] theorem State.setA_pc (s : State) (v : Byte) : (s.setA v).pc = s.pc := rfl
@[simp] theorem State.setA_sp (s : State) (v : Byte) : (s.setA v).sp = s.sp := rfl
@[simp] theorem State.setA_a (s : State) (v : Byte) : (s.setA v).a = v := rfl
@[simp] theorem State.setA_x (s : State) (v : Byte) : (s.setA v).x = s.x := rfl
@[simp] theorem State.setA_y (s : State) (v : Byte) : (s.setA v).y = s.y := rfl
@[simp] theorem State.setA_p (s : State) (v : Byte) : (s.setA v).p = s.p := rfl
@[simp] theorem State.setA_status (s : State) (v : Byte) : (s.setA v).status = s.status := rfl
@[simp] theorem State.setA_reports (s : State) (v : Byte) : (s.setA v).reports = s.reports := rfl
@[simp] theorem State.setA_devices (s : State) (v : Byte) : (s.setA v).devices = s.devices := rfl

/-! `setP`. -/

@[simp] theorem State.setP_pc (s : State) (v : Byte) : (s.setP v).pc = s.pc := rfl
@[simp] theorem State.setP_sp (s : State) (v : Byte) : (s.setP v).sp = s.sp := rfl
@[simp] theorem State.setP_a (s : State) (v : Byte) : (s.setP v).a = s.a := rfl
@[simp] theorem State.setP_x (s : State) (v : Byte) : (s.setP v).x = s.x := rfl
@[simp] theorem State.setP_y (s : State) (v : Byte) : (s.setP v).y = s.y := rfl
@[simp] theorem State.setP_p (s : State) (v : Byte) : (s.setP v).p = v := rfl
@[simp] theorem State.setP_status (s : State) (v : Byte) : (s.setP v).status = s.status := rfl
@[simp] theorem State.setP_reports (s : State) (v : Byte) : (s.setP v).reports = s.reports := rfl
@[simp] theorem State.setP_devices (s : State) (v : Byte) : (s.setP v).devices = s.devices := rfl

/-! `setPc`. -/

@[simp] theorem State.setPc_pc (s : State) (w : Addr) : (s.setPc w).pc = w := rfl
@[simp] theorem State.setPc_sp (s : State) (w : Addr) : (s.setPc w).sp = s.sp := rfl
@[simp] theorem State.setPc_a (s : State) (w : Addr) : (s.setPc w).a = s.a := rfl
@[simp] theorem State.setPc_x (s : State) (w : Addr) : (s.setPc w).x = s.x := rfl
@[simp] theorem State.setPc_y (s : State) (w : Addr) : (s.setPc w).y = s.y := rfl
@[simp] theorem State.setPc_p (s : State) (w : Addr) : (s.setPc w).p = s.p := rfl
@[simp] theorem State.setPc_status (s : State) (w : Addr) : (s.setPc w).status = s.status := rfl
@[simp] theorem State.setPc_reports (s : State) (w : Addr) : (s.setPc w).reports = s.reports := rfl
@[simp] theorem State.setPc_devices (s : State) (w : Addr) : (s.setPc w).devices = s.devices := rfl

/-! `setFlag`. -/

@[simp] theorem State.setFlag_pc (s : State) (f : Flag) (v : Bool) : (s.setFlag f v).pc = s.pc := rfl
@[simp] theorem State.setFlag_sp (s : State) (f : Flag) (v : Bool) : (s.setFlag f v).sp = s.sp := rfl
@[simp] theorem State.setFlag_a (s : State) (f : Flag) (v : Bool) : (s.setFlag f v).a = s.a := rfl
@[simp] theorem State.setFlag_x (s : State) (f : Flag) (v : Bool) : (s.setFlag f v).x = s.x := rfl
@[simp] theorem State.setFlag_y (s : State) (f : Flag) (v : Bool) : (s.setFlag f v).y = s.y := rfl
@[simp] theorem State.setFlag_p (s : State) (f : Flag) (v : Bool) : (s.setFlag f v).p = withFlag s.p f v := rfl
@[simp] theorem State.setFlag_status (s : State) (f : Flag) (v : Bool) : (s.setFlag f v).status = s.status := rfl
@[simp] theorem State.setFlag_reports (s : State) (f : Flag) (v : Bool) : (s.setFlag f v).reports = s.reports := rfl
@[simp] theorem State.setFlag_devices (s : State) (f : Flag) (v : Bool) : (s.setFlag f v).devices = s.devices := rfl

/-! `advance`. -/

@[simp] theorem State.advance_pc (s : State) (n : Nat) : (s.advance n).pc = s.pc + BitVec.ofNat 16 n := rfl
@[simp] theorem State.advance_sp (s : State) (n : Nat) : (s.advance n).sp = s.sp := rfl
@[simp] theorem State.advance_a (s : State) (n : Nat) : (s.advance n).a = s.a := rfl
@[simp] theorem State.advance_x (s : State) (n : Nat) : (s.advance n).x = s.x := rfl
@[simp] theorem State.advance_y (s : State) (n : Nat) : (s.advance n).y = s.y := rfl
@[simp] theorem State.advance_p (s : State) (n : Nat) : (s.advance n).p = s.p := rfl
@[simp] theorem State.advance_status (s : State) (n : Nat) : (s.advance n).status = s.status := rfl
@[simp] theorem State.advance_reports (s : State) (n : Nat) : (s.advance n).reports = s.reports := rfl
@[simp] theorem State.advance_devices (s : State) (n : Nat) : (s.advance n).devices = s.devices := rfl

/-! `report`. -/

@[simp] theorem State.report_pc (s : State) (r : Report) : (s.report r).pc = s.pc := rfl
@[simp] theorem State.report_sp (s : State) (r : Report) : (s.report r).sp = s.sp := rfl
@[simp] theorem State.report_a (s : State) (r : Report) : (s.report r).a = s.a := rfl
@[simp] theorem State.report_x (s : State) (r : Report) : (s.report r).x = s.x := rfl
@[simp] theorem State.report_y (s : State) (r : Report) : (s.report r).y = s.y := rfl
@[simp] theorem State.report_p (s : State) (r : Report) : (s.report r).p = s.p := rfl
@[simp] theorem State.report_status (s : State) (r : Report) : (s.report r).status = s.status := rfl
@[simp] theorem State.report_reports (s : State) (r : Report) : (s.report r).reports = s.reports ++ [r] := rfl
@[simp] theorem State.report_devices (s : State) (r : Report) : (s.report r).devices = s.devices := rfl

/-! `halt`. -/

@[simp] theorem State.halt_pc (s : State) (f : Fault) : (s.halt f).pc = s.pc := rfl
@[simp] theorem State.halt_sp (s : State) (f : Fault) : (s.halt f).sp = s.sp := rfl
@[simp] theorem State.halt_a (s : State) (f : Fault) : (s.halt f).a = s.a := rfl
@[simp] theorem State.halt_x (s : State) (f : Fault) : (s.halt f).x = s.x := rfl
@[simp] theorem State.halt_y (s : State) (f : Fault) : (s.halt f).y = s.y := rfl
@[simp] theorem State.halt_p (s : State) (f : Fault) : (s.halt f).p = s.p := rfl
@[simp] theorem State.halt_status (s : State) (f : Fault) : (s.halt f).status = .halted f := rfl
@[simp] theorem State.halt_reports (s : State) (f : Fault) : (s.halt f).reports = s.reports := rfl
@[simp] theorem State.halt_devices (s : State) (f : Fault) : (s.halt f).devices = s.devices := rfl

/-! `branch`, `memWrite`, `writeBack`, `placeByte`: the fields they leave alone. -/

@[simp] theorem State.branch_sp (s : State) (c : Bool) (off : Byte) : (s.branch c off).sp = s.sp := by
  cases c <;> rfl
@[simp] theorem State.branch_a (s : State) (c : Bool) (off : Byte) : (s.branch c off).a = s.a := by
  cases c <;> rfl
@[simp] theorem State.branch_x (s : State) (c : Bool) (off : Byte) : (s.branch c off).x = s.x := by
  cases c <;> rfl
@[simp] theorem State.branch_y (s : State) (c : Bool) (off : Byte) : (s.branch c off).y = s.y := by
  cases c <;> rfl
@[simp] theorem State.branch_p (s : State) (c : Bool) (off : Byte) : (s.branch c off).p = s.p := by
  cases c <;> rfl
@[simp] theorem State.branch_status (s : State) (c : Bool) (off : Byte) : (s.branch c off).status = s.status := by
  cases c <;> rfl
@[simp] theorem State.branch_reports (s : State) (c : Bool) (off : Byte) : (s.branch c off).reports = s.reports := by
  cases c <;> rfl
@[simp] theorem State.branch_devices (s : State) (c : Bool) (off : Byte) : (s.branch c off).devices = s.devices := by
  cases c <;> rfl

/-- Where a branch goes (43_branches.md R140). -/
theorem State.branch_pc (s : State) (c : Bool) (off : Byte) :
    (s.branch c off).pc = if c then s.pc + 2#16 + signExtendOffset off else s.pc + 2#16 := by
  cases c <;> rfl

/-- A branch changes `pc` alone. -/
theorem State.branch_eq (s : State) (c : Bool) (off : Byte) :
    s.branch c off = { s with pc := (s.branch c off).pc } := by
  cases c <;> rfl

@[simp] theorem State.memWrite_pc (s : State) (w : Addr) (v : Byte) : (s.memWrite w v).pc = s.pc := by
  unfold State.memWrite; split <;> rfl
@[simp] theorem State.memWrite_sp (s : State) (w : Addr) (v : Byte) : (s.memWrite w v).sp = s.sp := by
  unfold State.memWrite; split <;> rfl
@[simp] theorem State.memWrite_a (s : State) (w : Addr) (v : Byte) : (s.memWrite w v).a = s.a := by
  unfold State.memWrite; split <;> rfl
@[simp] theorem State.memWrite_x (s : State) (w : Addr) (v : Byte) : (s.memWrite w v).x = s.x := by
  unfold State.memWrite; split <;> rfl
@[simp] theorem State.memWrite_y (s : State) (w : Addr) (v : Byte) : (s.memWrite w v).y = s.y := by
  unfold State.memWrite; split <;> rfl
@[simp] theorem State.memWrite_p (s : State) (w : Addr) (v : Byte) : (s.memWrite w v).p = s.p := by
  unfold State.memWrite; split <;> rfl
@[simp] theorem State.memWrite_status (s : State) (w : Addr) (v : Byte) : (s.memWrite w v).status = s.status := by
  unfold State.memWrite; split <;> rfl

@[simp] theorem writeBack_pc (s : State) (l : Loc) (v : Byte) : (writeBack s l v).pc = s.pc := by
  cases l <;> simp [writeBack]
@[simp] theorem writeBack_sp (s : State) (l : Loc) (v : Byte) : (writeBack s l v).sp = s.sp := by
  cases l <;> simp [writeBack]
@[simp] theorem writeBack_x (s : State) (l : Loc) (v : Byte) : (writeBack s l v).x = s.x := by
  cases l <;> simp [writeBack]
@[simp] theorem writeBack_y (s : State) (l : Loc) (v : Byte) : (writeBack s l v).y = s.y := by
  cases l <;> simp [writeBack]
@[simp] theorem writeBack_p (s : State) (l : Loc) (v : Byte) : (writeBack s l v).p = s.p := by
  cases l <;> simp [writeBack]
@[simp] theorem writeBack_status (s : State) (l : Loc) (v : Byte) : (writeBack s l v).status = s.status := by
  cases l <;> simp [writeBack]

@[simp] theorem State.placeByte_pc (s : State) (w : Addr) (v : Byte) : (s.placeByte w v).pc = s.pc := by
  unfold State.placeByte; split <;> rfl
@[simp] theorem State.placeByte_sp (s : State) (w : Addr) (v : Byte) : (s.placeByte w v).sp = s.sp := by
  unfold State.placeByte; split <;> rfl
@[simp] theorem State.placeByte_a (s : State) (w : Addr) (v : Byte) : (s.placeByte w v).a = s.a := by
  unfold State.placeByte; split <;> rfl
@[simp] theorem State.placeByte_x (s : State) (w : Addr) (v : Byte) : (s.placeByte w v).x = s.x := by
  unfold State.placeByte; split <;> rfl
@[simp] theorem State.placeByte_y (s : State) (w : Addr) (v : Byte) : (s.placeByte w v).y = s.y := by
  unfold State.placeByte; split <;> rfl
@[simp] theorem State.placeByte_p (s : State) (w : Addr) (v : Byte) : (s.placeByte w v).p = s.p := by
  unfold State.placeByte; split <;> rfl
@[simp] theorem State.placeByte_status (s : State) (w : Addr) (v : Byte) : (s.placeByte w v).status = s.status := by
  unfold State.placeByte; split <;> rfl
@[simp] theorem State.placeByte_reports (s : State) (w : Addr) (v : Byte) : (s.placeByte w v).reports = s.reports := by
  unfold State.placeByte; split <;> rfl

/-- A Bus write that a device takes. -/
theorem State.memWrite_of_some {s : State} {w : Addr} {v : Byte} {ds : List Device}
    (h : busWrite s.devices w v = some ds) : s.memWrite w v = { s with devices := ds } := by
  simp [State.memWrite, h]

/-- A Bus write no device takes (20_memory.md R51). -/
theorem State.memWrite_of_none {s : State} {w : Addr} {v : Byte}
    (h : busWrite s.devices w v = none) : s.memWrite w v = s.report (.unroutedWrite w v) := by
  simp [State.memWrite, h]

/-- A Bus read of a mapped address. -/
theorem State.memRead_of_some {s : State} {w : Addr} {b : Byte} (h : s.byteAt w = some b) :
    s.memRead w = .ok b := by
  simp [State.memRead, h]

/-- A Bus read of an unmapped address (20_memory.md R52). -/
theorem State.memRead_of_none {s : State} {w : Addr} (h : s.byteAt w = none) :
    s.memRead w = .error (.unmappedRead w) := by
  simp [State.memRead, h]

/-- A Bus read answers a byte exactly where that byte stands. -/
theorem State.memRead_eq_ok {s : State} {w : Addr} {b : Byte} : s.memRead w = .ok b ↔ s.byteAt w = some b := by
  unfold State.memRead
  cases s.byteAt w <;> simp

/-- A Bus read faults exactly where no device maps the address, and names it. -/
theorem State.memRead_eq_error {s : State} {w : Addr} {f : Fault} :
    s.memRead w = .error f ↔ s.byteAt w = none ∧ f = .unmappedRead w := by
  unfold State.memRead
  cases s.byteAt w <;> simp [eq_comm]

/-- What a byte reads as depends on the devices alone. -/
theorem State.byteAt_congr {s t : State} (h : t.devices = s.devices) (w : Addr) : t.byteAt w = s.byteAt w := by
  simp [State.byteAt, h]

end Sys2Proof.Machine
end

