-- ==== Sys2Proof/Laws/Bus.lean ====
section
/-! SUPPORT. What a device and the Bus answer, what a Bus write changes, and that both keep the canonical form. -/

namespace Sys2Proof.Machine

/-- A device reads exactly in its range. -/
theorem Device.read_of_maps {d : Device} {w : Addr} (h : d.maps w = true) :
    d.read w = some (Memory.read d.cells (w.toNat - d.base)) := by
  simp [Device.read, h]

/-- A device takes a write exactly in its range. -/
theorem Device.write_of_maps {d : Device} {w : Addr} (v : Byte) (h : d.maps w = true) :
    d.write w v = some { d with cells := Memory.write d.cells (w.toNat - d.base) v } := by
  simp [Device.write, h]

/-- A device's write keeps its well-formedness. -/
theorem Device.wf_write {d : Device} {w : Addr} (v : Byte) (hm : d.maps w = true) (h : d.wf = true) :
    Device.wf { d with cells := Memory.write d.cells (w.toNat - d.base) v } = true := by
  simp only [Device.wf, Bool.and_eq_true, List.all_eq_true, decide_eq_true_eq] at h ⊢
  refine ⟨Memory.wf_write _ _ h.1, fun c hc => ?_⟩
  simp only [Device.maps, Bool.and_eq_true, decide_eq_true_eq] at hm
  rcases Memory.mem_write hc with hc | rfl
  · exact h.2 c hc
  · show w.toNat - d.base < d.size
    omega

/-- No device answers on an empty Bus. -/
@[simp] theorem busRead_nil (w : Addr) : busRead [] w = none := rfl

/-- The Bus reads the first device if it maps the address, else the rest (20_memory.md R49). -/
theorem busRead_cons (d : Device) (ds : List Device) (w : Addr) :
    busRead (d :: ds) w =
      if d.maps w then some (Memory.read d.cells (w.toNat - d.base)) else busRead ds w := by
  unfold busRead busSelect
  by_cases h : d.maps w = true
  · simp [h, Device.read_of_maps h]
  · simp [h]

/-- The Bus writes the first device if it maps the address, else the rest (20_memory.md R49, R51). -/
theorem busWrite_cons (d : Device) (ds : List Device) (w : Addr) (v : Byte) :
    busWrite (d :: ds) w v =
      if d.maps w then some ({ d with cells := Memory.write d.cells (w.toNat - d.base) v } :: ds)
      else (busWrite ds w v).map (fun ds' => d :: ds') := by
  rw [busWrite]
  by_cases h : d.maps w = true
  · simp [h, Device.write_of_maps v h]
  · simp [h]

/-- The Bus answers a read where some device maps the address, and nowhere else (20_memory.md R49, R52). -/
theorem busRead_isSome (ds : List Device) (w : Addr) :
    (busRead ds w).isSome = ds.any (fun d => d.maps w) := by
  induction ds with
  | nil => rfl
  | cons d ds ih =>
    rw [busRead_cons, List.any_cons]
    by_cases h : d.maps w = true
    · simp [h]
    · simp [h, ih]

/-- The Bus takes a write where it answers a read (42_asl.md R131). -/
theorem busWrite_isSome (ds : List Device) (w : Addr) (v : Byte) :
    (busWrite ds w v).isSome = (busRead ds w).isSome := by
  induction ds with
  | nil => rfl
  | cons d ds ih =>
    rw [busRead_cons, busWrite_cons]
    by_cases h : d.maps w = true
    · simp [h]
    · simp [h, ih]

/-- A Bus write leaves what every other address reads as. -/
theorem busRead_busWrite_ne {ds ds' : List Device} {w u : Addr} {v : Byte} (h : busWrite ds w v = some ds')
    (hu : u ≠ w) : busRead ds' u = busRead ds u := by
  induction ds generalizing ds' with
  | nil => simp [busWrite] at h
  | cons d ds ih =>
    rw [busWrite_cons] at h
    split at h
    · rename_i hm
      obtain rfl := Option.some.inj h
      rw [busRead_cons, busRead_cons]
      show (if d.maps u then
          some (Memory.read (Memory.write d.cells (w.toNat - d.base) v) (u.toNat - d.base))
        else busRead ds u) = _
      split
      · rename_i hmu
        simp only [Device.maps, Bool.and_eq_true, decide_eq_true_eq] at hm hmu
        have hne : u.toNat ≠ w.toNat := fun e => hu (BitVec.eq_of_toNat_eq e)
        rw [Memory.read_write_ne _ _ (by omega)]
      · rfl
    · obtain ⟨es, hes, rfl⟩ := Option.map_eq_some_iff.mp h
      rw [busRead_cons, busRead_cons, ih hes]

/-- A Bus write is read back, in devices in canonical form. -/
theorem busRead_busWrite_self {ds ds' : List Device} {w : Addr} {v : Byte} (h : busWrite ds w v = some ds')
    (hwf : ds.all Device.wf = true) : busRead ds' w = some v := by
  induction ds generalizing ds' with
  | nil => simp [busWrite] at h
  | cons d ds ih =>
    simp only [List.all_cons, Bool.and_eq_true] at hwf
    rw [busWrite_cons] at h
    split at h
    · rename_i hm
      obtain rfl := Option.some.inj h
      rw [busRead_cons, if_pos (by exact hm)]
      have hd := hwf.1
      simp only [Device.wf, Bool.and_eq_true] at hd
      exact congrArg some (Memory.read_write_self v hd.1)
    · rename_i hm
      obtain ⟨es, hes, rfl⟩ := Option.map_eq_some_iff.mp h
      rw [busRead_cons, if_neg hm, ih hes hwf.2]

/-- A Bus write keeps every device well formed. -/
theorem busWrite_wf {ds ds' : List Device} {w : Addr} {v : Byte} (h : busWrite ds w v = some ds')
    (hwf : ds.all Device.wf = true) : ds'.all Device.wf = true := by
  induction ds generalizing ds' with
  | nil => simp [busWrite] at h
  | cons d ds ih =>
    simp only [List.all_cons, Bool.and_eq_true] at hwf
    rw [busWrite_cons] at h
    split at h
    · rename_i hm
      obtain rfl := Option.some.inj h
      simp only [List.all_cons, Bool.and_eq_true]
      exact ⟨Device.wf_write v hm hwf.1, hwf.2⟩
    · obtain ⟨es, hes, rfl⟩ := Option.map_eq_some_iff.mp h
      simp only [List.all_cons, Bool.and_eq_true]
      exact ⟨hwf.1, ih hes hwf.2⟩

/-- A Bus write moves no device's range (20_memory.md R41). -/
theorem busWrite_layout {ds ds' : List Device} {w : Addr} {v : Byte} (h : busWrite ds w v = some ds') :
    ds'.map Device.addressSpace = ds.map Device.addressSpace := by
  induction ds generalizing ds' with
  | nil => simp [busWrite] at h
  | cons d ds ih =>
    rw [busWrite_cons] at h
    split at h
    · obtain rfl := Option.some.inj h
      rfl
    · obtain ⟨es, hes, rfl⟩ := Option.map_eq_some_iff.mp h
      simp only [List.map_cons, ih hes]

/-! The same for the machine's memory operations. -/

/-- A write to a mapped address changes the devices and nothing else. -/
theorem State.memWrite_of_mapped {s : State} {w : Addr} (v : Byte) (h : (s.byteAt w).isSome = true) :
    ∃ ds, busWrite s.devices w v = some ds ∧ s.memWrite w v = { s with devices := ds } := by
  rw [State.byteAt, ← busWrite_isSome _ _ v] at h
  obtain ⟨ds, hds⟩ := Option.isSome_iff_exists.mp h
  exact ⟨ds, hds, State.memWrite_of_some hds⟩

/-- A write to an unmapped address is reported and changes no cell (20_memory.md R51). -/
theorem State.memWrite_of_unmapped {s : State} {w : Addr} (v : Byte) (h : s.byteAt w = none) :
    s.memWrite w v = s.report (.unroutedWrite w v) := by
  apply State.memWrite_of_none
  have := busWrite_isSome s.devices w v
  rw [← State.byteAt, h] at this
  exact Option.isSome_eq_false_iff.mp this |> Option.isNone_iff_eq_none.mp

/-- A write leaves what every other address reads as. -/
theorem State.byteAt_memWrite_ne {s : State} {w u : Addr} (v : Byte) (hu : u ≠ w) :
    (s.memWrite w v).byteAt u = s.byteAt u := by
  unfold State.memWrite
  split
  · rename_i ds h
    exact busRead_busWrite_ne h hu
  · rfl

/-- A write keeps the canonical form of memory. -/
theorem State.wf_memWrite {s : State} (w : Addr) (v : Byte) (h : s.wf = true) : (s.memWrite w v).wf = true := by
  unfold State.memWrite
  split
  · rename_i ds hds
    exact busWrite_wf hds h
  · exact h

/-- The harness's store keeps the canonical form of memory. -/
theorem State.wf_placeByte {s : State} (w : Addr) (v : Byte) (h : s.wf = true) : (s.placeByte w v).wf = true := by
  unfold State.placeByte
  split
  · rename_i ds hds
    exact busWrite_wf hds h
  · exact h

/-- Reset memory is in canonical form. -/
theorem reset_memory_wf : ∀ d ∈ State.reset.devices, Memory.wf d.cells = true := by
  decide

end Sys2Proof.Machine
end

