-- ==== Sys2Proof/Laws/Operands.lean ====
section
/-! SUPPORT. What the resolver answers, and when an instruction with a resolved operand goes on. -/

namespace Sys2Proof.Machine

@[simp] theorem withOperand_ok (o : Operand) (k : Operand → State) : withOperand (.ok o) k = .next (k o) := rfl

@[simp] theorem withOperand_error (f : Fault) (k : Operand → State) : withOperand (.error f) k = .fault f := rfl

/-- An instruction with an operand goes on exactly where the resolver answers, with its handler's state. -/
theorem withOperand_eq_next {r : Except Fault Operand} {k : Operand → State} {t : State} :
    withOperand r k = .next t ↔ ∃ o, r = .ok o ∧ k o = t := by
  cases r <;> simp

/-- An instruction with an operand faults exactly where the resolver does. -/
theorem withOperand_eq_fault {r : Except Fault Operand} {k : Operand → State} {f : Fault} :
    withOperand r k = .fault f ↔ r = .error f := by
  cases r <;> simp

/-- An instruction with an operand refuses nothing. -/
theorem withOperand_ne_refused (r : Except Fault Operand) (k : Operand → State) (e : Refusal) :
    withOperand r k ≠ .refused e := by
  cases r <;> simp

/-- The operand at a mapped effective address. -/
theorem resolveAt_of_some {s : State} {ea : Addr} {v : Byte} (h : s.byteAt ea = some v) :
    resolveAt s ea = .ok { loc := .mem ea, value := v, extra := 0 } := by
  simp [resolveAt, State.memRead_of_some h]

/-- The fault of an unmapped effective address. -/
theorem resolveAt_of_none {s : State} {ea : Addr} (h : s.byteAt ea = none) :
    resolveAt s ea = .error (.unmappedRead ea) := by
  simp [resolveAt, State.memRead_of_none h]

/-- What the resolver answered at an effective address. -/
theorem resolveAt_eq_ok {s : State} {ea : Addr} {o : Operand} :
    resolveAt s ea = .ok o ↔ ∃ v, s.byteAt ea = some v ∧ o = { loc := .mem ea, value := v, extra := 0 } := by
  cases h : s.byteAt ea with
  | none => simp [resolveAt_of_none h]
  | some v => simp [resolveAt_of_some h, eq_comm]

/-- When the resolver faults at an effective address, and with what. -/
theorem resolveAt_eq_error {s : State} {ea : Addr} {f : Fault} :
    resolveAt s ea = .error f ↔ s.byteAt ea = none ∧ f = .unmappedRead ea := by
  cases h : s.byteAt ea with
  | none => simp [resolveAt_of_none h, eq_comm]
  | some v => simp [resolveAt_of_some h]

/-- An instruction goes on with the operand of a mapped effective address. -/
theorem withOperand_of_some {s : State} {ea : Addr} {v : Byte} (k : Operand → State) (h : s.byteAt ea = some v) :
    withOperand (resolveAt s ea) k = .next (k { loc := .mem ea, value := v, extra := 0 }) := by
  rw [resolveAt_of_some h, withOperand_ok]

/-- An instruction faults on an unmapped effective address. -/
theorem withOperand_of_none {s : State} {ea : Addr} (k : Operand → State) (h : s.byteAt ea = none) :
    withOperand (resolveAt s ea) k = .fault (.unmappedRead ea) := by
  rw [resolveAt_of_none h, withOperand_error]

/-- The effective address of ZeroPage mode as a number (40_pipeline_and_addressing.md R97). -/
theorem eaZeroPage_toNat (s : State) (i : Index) (zp : Byte) :
    (eaZeroPage s i zp).toNat = (zp.toNat + (s.index i).toNat) % 256 := by
  simp [eaZeroPage, BitVec.toNat_setWidth]
  omega

/-- The effective address of Absolute mode as a number (40_pipeline_and_addressing.md R98). -/
theorem eaAbsolute_toNat (s : State) (i : Index) (base : Addr) :
    (eaAbsolute s i base).toNat = (base.toNat + (s.index i).toNat) % 65536 := by
  simp [eaAbsolute, BitVec.toNat_setWidth]

end Sys2Proof.Machine
end

