-- ==== Sys2Proof/Laws/Exec.lean ====
section
/-! SUPPORT. What each handler does as one record update, and what executing an instruction can do at all: every
frame and every invariant follows from `exec_next_cases`. -/

namespace Sys2Proof.Machine

theorem adcHandler_eq (o : Operand) (len : Nat) (s : State) :
    adcHandler o len s =
      { s with a := adcResult s.a o.value (flagOf s.p .c), p := adcStatus s.p s.a o.value,
               pc := s.pc + BitVec.ofNat 16 len } := rfl

theorem andHandler_eq (o : Operand) (len : Nat) (s : State) :
    andHandler o len s =
      { s with a := s.a &&& o.value, p := withZN s.p (s.a &&& o.value), pc := s.pc + BitVec.ofNat 16 len } := rfl

theorem cmpHandler_eq (o : Operand) (len : Nat) (s : State) :
    cmpHandler o len s = { s with p := cmpStatus s.p s.a o.value, pc := s.pc + BitVec.ofNat 16 len } := rfl

theorem bitHandler_eq (o : Operand) (len : Nat) (s : State) :
    bitHandler o len s = { s with p := bitStatus s.p s.a o.value, pc := s.pc + BitVec.ofNat 16 len } := rfl

/-- ASL on the accumulator changes a, p and pc (42_asl.md R130). -/
theorem aslHandler_acc_eq (v : Byte) (n len : Nat) (s : State) :
    aslHandler { loc := .acc, value := v, extra := n } len s =
      { s with a := aslResult v, p := aslStatus s.p v, pc := s.pc + BitVec.ofNat 16 len } := rfl

/-- ASL on memory writes one byte and changes p and pc (42_asl.md R131). -/
theorem aslHandler_mem_eq (ea : Addr) (v : Byte) (n len : Nat) (s : State) :
    aslHandler { loc := .mem ea, value := v, extra := n } len s =
      { s.memWrite ea (aslResult v) with p := aslStatus s.p v, pc := s.pc + BitVec.ofNat 16 len } := by
  show ({ s.memWrite ea (aslResult v) with
    p := aslStatus s.p v, pc := (s.memWrite ea (aslResult v)).pc + BitVec.ofNat 16 len } : State) = _
  rw [State.memWrite_pc]

/-- A step from `s` to `t` that changes a, p and pc at most. -/
def OnlyRegs (s t : State) : Prop :=
  ∃ a p pc, t = { s with a := a, p := p, pc := pc }

/-- A step from `s` to `t` that writes one byte to an address it has just read, and p and pc. -/
def Stored (s t : State) : Prop :=
  ∃ ea v r p pc, s.byteAt ea = some v ∧ t = { s.memWrite ea r with p := p, pc := pc }

/-- A memory form of ASL stores. -/
theorem asl_stored {s t : State} {ea : Addr} {len : Nat}
    (h : withOperand (resolveAt s ea) (fun o => aslHandler o len s) = .next t) : Stored s t := by
  obtain ⟨o, ho, rfl⟩ := withOperand_eq_next.mp h
  obtain ⟨v, hv, rfl⟩ := resolveAt_eq_ok.mp ho
  exact ⟨ea, v, _, _, _, hv, aslHandler_mem_eq ea v 0 len s⟩

/-- A branch changes pc at most (43_branches.md R140). -/
theorem branch_onlyRegs (s : State) (c : Bool) (off : Byte) : OnlyRegs s (s.branch c off) :=
  ⟨s.a, s.p, _, State.branch_eq s c off⟩

/-- A form that reads its operand from memory and has one of the register handlers. -/
theorem read_onlyRegs {s t : State} {r : Except Fault Operand} {k : Operand → State}
    (hk : ∀ o, OnlyRegs s (k o)) (h : withOperand r k = .next t) : OnlyRegs s t := by
  obtain ⟨o, -, rfl⟩ := withOperand_eq_next.mp h
  exact hk o

theorem adc_onlyRegs (len : Nat) (s : State) (o : Operand) : OnlyRegs s (adcHandler o len s) := ⟨_, _, _, rfl⟩
theorem and_onlyRegs (len : Nat) (s : State) (o : Operand) : OnlyRegs s (andHandler o len s) := ⟨_, _, _, rfl⟩
theorem cmp_onlyRegs (len : Nat) (s : State) (o : Operand) : OnlyRegs s (cmpHandler o len s) := ⟨s.a, _, _, rfl⟩
theorem bit_onlyRegs (len : Nat) (s : State) (o : Operand) : OnlyRegs s (bitHandler o len s) := ⟨s.a, _, _, rfl⟩

/-- Whether an instruction stores to memory: the memory forms of ASL and no other (40_pipeline_and_addressing.md
R104). -/
def storesMemory : Instr → Bool
  | .aslZp _ | .aslZpX _ | .aslAbs _ | .aslAbsX _ => true
  | _ => false

/-- Everything executing an instruction can do, if it goes on: change a, p and pc, or, for a memory form of ASL, write
one mapped byte, p and pc. -/
theorem exec_next_cases {i : Instr} {s t : State} (h : exec i s = .next t) :
    (storesMemory i = false ∧ OnlyRegs s t) ∨ (storesMemory i = true ∧ Stored s t) := by
  cases i with
  | adcImm imm => cases h; exact .inl ⟨rfl, adc_onlyRegs _ s _⟩
  | adcZp zp => exact .inl ⟨rfl, read_onlyRegs (adc_onlyRegs _ s) h⟩
  | adcZpX zp => exact .inl ⟨rfl, read_onlyRegs (adc_onlyRegs _ s) h⟩
  | adcAbs base => exact .inl ⟨rfl, read_onlyRegs (adc_onlyRegs _ s) h⟩
  | adcAbsX base => exact .inl ⟨rfl, read_onlyRegs (adc_onlyRegs _ s) h⟩
  | adcAbsY base => exact .inl ⟨rfl, read_onlyRegs (adc_onlyRegs _ s) h⟩
  | adcIndX zp => cases h
  | adcIndY zp => cases h
  | andImm imm => cases h; exact .inl ⟨rfl, and_onlyRegs _ s _⟩
  | andZp zp => exact .inl ⟨rfl, read_onlyRegs (and_onlyRegs _ s) h⟩
  | andZpX zp => exact .inl ⟨rfl, read_onlyRegs (and_onlyRegs _ s) h⟩
  | andAbs base => exact .inl ⟨rfl, read_onlyRegs (and_onlyRegs _ s) h⟩
  | andAbsX base => exact .inl ⟨rfl, read_onlyRegs (and_onlyRegs _ s) h⟩
  | andAbsY base => exact .inl ⟨rfl, read_onlyRegs (and_onlyRegs _ s) h⟩
  | andIndX zp => cases h
  | andIndY zp => cases h
  | cmpImm imm => cases h; exact .inl ⟨rfl, cmp_onlyRegs _ s _⟩
  | cmpZp zp => exact .inl ⟨rfl, read_onlyRegs (cmp_onlyRegs _ s) h⟩
  | cmpZpX zp => exact .inl ⟨rfl, read_onlyRegs (cmp_onlyRegs _ s) h⟩
  | cmpAbs base => exact .inl ⟨rfl, read_onlyRegs (cmp_onlyRegs _ s) h⟩
  | cmpAbsX base => exact .inl ⟨rfl, read_onlyRegs (cmp_onlyRegs _ s) h⟩
  | cmpAbsY base => exact .inl ⟨rfl, read_onlyRegs (cmp_onlyRegs _ s) h⟩
  | cmpIndX zp => cases h
  | cmpIndY zp => cases h
  | aslAcc => cases h; exact .inl ⟨rfl, _, _, _, rfl⟩
  | aslZp zp => exact .inr ⟨rfl, asl_stored h⟩
  | aslZpX zp => exact .inr ⟨rfl, asl_stored h⟩
  | aslAbs base => exact .inr ⟨rfl, asl_stored h⟩
  | aslAbsX base => exact .inr ⟨rfl, asl_stored h⟩
  | bitZp zp => exact .inl ⟨rfl, read_onlyRegs (bit_onlyRegs _ s) h⟩
  | bitAbs base => exact .inl ⟨rfl, read_onlyRegs (bit_onlyRegs _ s) h⟩
  | bcc off => cases h; exact .inl ⟨rfl, branch_onlyRegs s _ _⟩
  | bcs off => cases h; exact .inl ⟨rfl, branch_onlyRegs s _ _⟩
  | beq off => cases h; exact .inl ⟨rfl, branch_onlyRegs s _ _⟩
  | bmi off => cases h; exact .inl ⟨rfl, branch_onlyRegs s _ _⟩
  | bne off => cases h; exact .inl ⟨rfl, branch_onlyRegs s _ _⟩
  | bpl off => cases h; exact .inl ⟨rfl, branch_onlyRegs s _ _⟩
  | bvc off => cases h; exact .inl ⟨rfl, branch_onlyRegs s _ _⟩
  | bvs off => cases h; exact .inl ⟨rfl, branch_onlyRegs s _ _⟩
  | clc => cases h; exact .inl ⟨rfl, s.a, _, _, rfl⟩
  | cld => cases h; exact .inl ⟨rfl, s.a, _, _, rfl⟩
  | cli => cases h; exact .inl ⟨rfl, s.a, _, _, rfl⟩
  | clv => cases h; exact .inl ⟨rfl, s.a, _, _, rfl⟩
  | brk => cases h

/-- No instruction is refused. -/
theorem exec_ne_refused (i : Instr) (s : State) (e : Refusal) : exec i s ≠ .refused e := by
  cases i <;> first | exact withOperand_ne_refused _ _ _ | exact nofun

/-- An instruction that stores nothing leaves the devices as they were. -/
theorem OnlyRegs.devices {s t : State} (h : OnlyRegs s t) : t.devices = s.devices := by
  obtain ⟨a, p, pc, rfl⟩ := h
  rfl

/-- A storing instruction's write is never unrouted (42_asl.md R131; 60_exceptions.md R185). -/
theorem Stored.devices {s t : State} (h : Stored s t) :
    ∃ ea v r ds p pc, s.byteAt ea = some v ∧ busWrite s.devices ea r = some ds ∧
      t = { s with devices := ds, p := p, pc := pc } := by
  obtain ⟨ea, v, r, p, pc, hv, rfl⟩ := h
  obtain ⟨ds, hds, hw⟩ := State.memWrite_of_mapped (s := s) (w := ea) r (by rw [hv]; rfl)
  exact ⟨ea, v, r, ds, p, pc, hv, hds, by rw [hw]⟩

end Sys2Proof.Machine
end

