-- ==== Sys2Proof/Laws/Fetch.lean ====
section
/-! SUPPORT. What the fetch answers where bytes stand at `pc`, and what a step is on a running machine. -/

namespace Sys2Proof.Machine

theorem pcPlus_one (s : State) : s.pcPlus 1 = s.pc + 1 := rfl

theorem pcPlus_two (s : State) : s.pcPlus 2 = s.pc + 2 := rfl

/-- A halted machine's step is its fault again (40_pipeline_and_addressing.md R90). -/
theorem step_halted {s : State} {f : Fault} (h : s.status = .halted f) : step s = .fault f := by
  simp [step, tickOutcome, h]

/-- A running machine's step is fetch, decode and execute (40_pipeline_and_addressing.md R105). -/
theorem step_running {s : State} (h : s.status = .running) :
    step s = match fetchInstr s with
      | .error f => .fault f
      | .ok i => exec i s := by
  cases s
  cases h
  rfl

/-- A step that goes on fetched an instruction on a running machine and executed it. -/
theorem step_next_cases {s t : State} (h : step s = .next t) :
    s.status = .running ∧ ∃ i, fetchInstr s = .ok i ∧ exec i s = .next t := by
  cases hs : s.status with
  | halted f => rw [step_halted hs] at h; cases h
  | running =>
    rw [step_running hs] at h
    cases hf : fetchInstr s with
    | error f => rw [hf] at h; cases h
    | ok i => rw [hf] at h; exact ⟨rfl, i, rfl, h⟩

/-- The operand bytes a row's mode has, read where they stand. -/
theorem fetchOperands_of_take {s : State} {r : Row} {bytes rest : List Byte} {i : Instr}
    (hb : s.holdsAt (s.pc + 1) bytes) (hd : r.take bytes = .ok (i, rest)) :
    (fetchOperands s r.mode).map (fun b => r.build b.1 b.2) = .ok i := by
  obtain ⟨op, kind, mode, build⟩ := r
  have two : (s.pc + 1 + 1 : Addr) = s.pc + 2 := by rw [BitVec.add_assoc]; rfl
  have one : ∀ (b : Byte) (bs : List Byte), s.holdsAt (s.pc + 1) (b :: bs) → s.byteAt (s.pc + 1) = some b :=
    fun _ _ h => h.1
  cases mode with
  | accumulator => simp only [Row.take, Mode.length] at hd; cases hd; rfl
  | implied => simp only [Row.take, Mode.length] at hd; cases hd; rfl
  | immediate =>
    cases bytes with
    | nil => cases hd
    | cons b bs =>
      cases hd
      unfold fetchOperands
      rw [pcPlus_one, State.memRead_of_some (one b _ hb)]
      rfl
  | zeroPage j =>
    cases bytes with
    | nil => cases hd
    | cons b bs =>
      cases hd
      unfold fetchOperands
      rw [pcPlus_one, State.memRead_of_some (one b _ hb)]
      rfl
  | relative =>
    cases bytes with
    | nil => cases hd
    | cons b bs =>
      cases hd
      unfold fetchOperands
      rw [pcPlus_one, State.memRead_of_some (one b _ hb)]
      rfl
  | indirect j =>
    cases bytes with
    | nil => cases hd
    | cons b bs =>
      cases hd
      unfold fetchOperands unreadOperand
      rw [pcPlus_one, one b _ hb]
      rfl
  | absolute j =>
    cases bytes with
    | nil => cases hd
    | cons b bs =>
      cases bs with
      | nil => cases hd
      | cons c cs =>
        cases hd
        have h2 : s.byteAt (s.pc + 2) = some c := two ▸ hb.2.1
        unfold fetchOperands
        rw [pcPlus_one, pcPlus_two, State.memRead_of_some (one b _ hb), State.memRead_of_some h2]
        rfl

/-- Where the bytes at `pc` decode to an instruction, the fetch answers it. -/
theorem fetchInstr_of_decode {s : State} {bytes rest : List Byte} {i : Instr}
    (hb : s.holdsAt s.pc bytes) (hd : decode bytes = .ok (i, rest)) : fetchInstr s = .ok i := by
  cases bytes with
  | nil => cases hd
  | cons op bs =>
    unfold fetchInstr
    rw [State.memRead_of_some hb.1]
    rw [decode] at hd
    cases hr : findRow op with
    | none => rw [hr] at hd; cases hd
    | some r =>
      rw [hr] at hd
      simp only [hr]
      exact fetchOperands_of_take hb.2 hd

/-- A row found for an opcode byte is a row of the table, and that byte is its own (30_encoding.md R72). -/
theorem findRow_mem {op : Byte} {r : Row} (h : findRow op = some r) : r ∈ opTable ∧ r.opcode = op := by
  unfold findRow at h
  exact ⟨List.mem_of_find?_eq_some h, by simpa using List.find?_some h⟩

/-- A run of one more tick meets no fault where its first tick goes on and the rest meets none. -/
theorem core_run_succ_eq_next (M : Host.Core) (n : Nat) (s t : M.State) :
    M.run (n + 1) s = .next t ↔ ∃ u, M.step s = .next u ∧ M.run n u = .next t := by
  rw [Host.Core.run]
  cases M.step s with
  | next u => exact ⟨fun h => ⟨u, rfl, h⟩, fun ⟨_, hu, h⟩ => by cases hu; exact h⟩
  | fault f => exact ⟨nofun, nofun⟩
  | refused r => exact ⟨nofun, nofun⟩

/-- What holds of every state and itself, and carries over one step, holds along every run that meets no fault. -/
theorem run_induction {P : State → State → Prop} (refl : ∀ s, P s s)
    (head : ∀ s t u, step s = .next t → P t u → P s u) (n : Nat) :
    ∀ s t : State, Host.Core.run Sys2Proof.core n s = .next t → P s t := by
  induction n with
  | zero => intro s t h; cases h; exact refl s
  | succ n ih =>
    intro s t h
    obtain ⟨u, hs, hu⟩ := (core_run_succ_eq_next Sys2Proof.core n s t).mp h
    exact head s u t hs (ih u t hu)

end Sys2Proof.Machine
end

