-- ==== Sys2Proof/Laws/Flags.lean ====
section
/-! SUPPORT. What writing a flag does to each bit of the status byte, and the flags of each computed status. -/

namespace Sys2Proof.Machine

/-- Every bit of a status byte after one flag is written. -/
theorem getLsbD_withFlag (p : Byte) (f : Flag) (v : Bool) {k : Nat} (hk : k < 8) :
    (withFlag p f v).getLsbD k = if k = f.bit then v else p.getLsbD k := by
  have h : k = 0 ∨ k = 1 ∨ k = 2 ∨ k = 3 ∨ k = 4 ∨ k = 5 ∨ k = 6 ∨ k = 7 := by omega
  rcases h with rfl | rfl | rfl | rfl | rfl | rfl | rfl | rfl <;> cases f <;> cases v <;>
    simp [withFlag, Flag.mask, Flag.bit]

/-- Two flags share no bit (10_state.md R25). -/
theorem Flag.bit_inj {f g : Flag} : f.bit = g.bit ↔ f = g := by
  cases f <;> cases g <;> decide

/-- Every named flag has its bit below bit 7 (10_state.md R25). -/
theorem Flag.bit_lt (f : Flag) : f.bit < 7 := by
  cases f <;> decide

/-- A flag after a flag is written. -/
theorem flagOf_withFlag (p : Byte) (f g : Flag) (v : Bool) :
    flagOf (withFlag p f v) g = if g = f then v else flagOf p g := by
  simp only [flagOf, getLsbD_withFlag p f v (show g.bit < 8 by have := g.bit_lt; omega), Flag.bit_inj]

@[simp] theorem flagOf_withFlag_self (p : Byte) (f : Flag) (v : Bool) : flagOf (withFlag p f v) f = v := by
  simp [flagOf_withFlag]

theorem flagOf_withFlag_ne (p : Byte) {f g : Flag} (v : Bool) (h : g ≠ f) :
    flagOf (withFlag p f v) g = flagOf p g := by
  simp [flagOf_withFlag, h]

/-- Bit 7 is written by no flag write (10_state.md R26). -/
@[simp] theorem bit7_withFlag (p : Byte) (f : Flag) (v : Bool) : (withFlag p f v)[7] = p[7] := by
  have := f.bit_lt
  rw [← BitVec.getLsbD_eq_getElem, getLsbD_withFlag p f v (by omega), if_neg (by omega),
    BitVec.getLsbD_eq_getElem]

@[simp] theorem bit7_withZN (p r : Byte) : (withZN p r)[7] = p[7] := by
  simp [withZN]

/-- The flags after the Zero and Negative rules. -/
theorem flagOf_withZN (p r : Byte) (g : Flag) :
    flagOf (withZN p r) g = if g = .n then negativeFlag r else if g = .z then zeroFlag r else flagOf p g := by
  simp only [withZN, flagOf_withFlag]

/-- The flags after ADC (41_adc_and.md R120). -/
theorem flagOf_adcStatus (p a v : Byte) (g : Flag) :
    flagOf (adcStatus p a v) g =
      match g with
      | .c => adcCarry a v (flagOf p .c)
      | .z => zeroFlag (adcResult a v (flagOf p .c))
      | .v => adcOverflow a v (flagOf p .c)
      | .n => negativeFlag (adcResult a v (flagOf p .c))
      | .i => flagOf p .i
      | .d => flagOf p .d
      | .b => flagOf p .b := by
  cases g <;> simp [adcStatus, flagOf_withZN, flagOf_withFlag]

/-- The flags after ASL (42_asl.md R130, R131). -/
theorem flagOf_aslStatus (p v : Byte) (g : Flag) :
    flagOf (aslStatus p v) g =
      match g with
      | .c => v.getLsbD 7
      | .z => zeroFlag (aslResult v)
      | .n => negativeFlag (aslResult v)
      | .v => flagOf p .v
      | .i => flagOf p .i
      | .d => flagOf p .d
      | .b => flagOf p .b := by
  cases g <;> simp [aslStatus, flagOf_withZN, flagOf_withFlag]

/-- The flags after CMP (45_bit_cmp_brk.md R171). -/
theorem flagOf_cmpStatus (p a m : Byte) (g : Flag) :
    flagOf (cmpStatus p a m) g =
      match g with
      | .c => decide (m.toNat ≤ a.toNat)
      | .z => zeroFlag (a - m)
      | .n => negativeFlag (a - m)
      | .v => flagOf p .v
      | .i => flagOf p .i
      | .d => flagOf p .d
      | .b => flagOf p .b := by
  cases g <;> simp [cmpStatus, flagOf_withZN, flagOf_withFlag]

/-- The flags after BIT (45_bit_cmp_brk.md R170). -/
theorem flagOf_bitStatus (p a m : Byte) (g : Flag) :
    flagOf (bitStatus p a m) g =
      match g with
      | .c => flagOf p .c
      | .z => zeroFlag (a &&& m)
      | .n => m.getLsbD 7
      | .v => m.getLsbD 6
      | .i => flagOf p .i
      | .d => flagOf p .d
      | .b => flagOf p .b := by
  cases g <;> simp [bitStatus, flagOf_withFlag]

@[simp] theorem bit7_adcStatus (p a v : Byte) : (adcStatus p a v)[7] = p[7] := by
  simp [adcStatus]

@[simp] theorem bit7_aslStatus (p v : Byte) : (aslStatus p v)[7] = p[7] := by
  simp [aslStatus]

@[simp] theorem bit7_cmpStatus (p a m : Byte) : (cmpStatus p a m)[7] = p[7] := by
  simp [cmpStatus]

@[simp] theorem bit7_bitStatus (p a m : Byte) : (bitStatus p a m)[7] = p[7] := by
  simp [bitStatus]

/-- Two status bytes with the same seven flags and the same bit 7 are equal. -/
theorem status_ext {p q : Byte} (h : ∀ f, flagOf p f = flagOf q f) (h7 : p.getLsbD 7 = q.getLsbD 7) : p = q := by
  apply BitVec.eq_of_getLsbD_eq
  intro k hk
  have hk' : k = 0 ∨ k = 1 ∨ k = 2 ∨ k = 3 ∨ k = 4 ∨ k = 5 ∨ k = 6 ∨ k = 7 := by omega
  rcases hk' with rfl | rfl | rfl | rfl | rfl | rfl | rfl | rfl
  · exact h .c
  · exact h .z
  · exact h .i
  · exact h .d
  · exact h .b
  · exact h .v
  · exact h .n
  · exact h7

/-- The ADC result on integers (41_adc_and.md R120). -/
theorem adcResult_toNat (a v : Byte) (c : Bool) :
    (adcResult a v c).toNat = (a.toNat + v.toNat + c.toNat) % 256 := by
  simp [adcResult, adcSum]

/-- The ASL result on integers (42_asl.md R130). -/
theorem aslResult_toNat (v : Byte) : (aslResult v).toNat = (v.toNat * 2) % 256 := by
  simp [aslResult]

end Sys2Proof.Machine
end

