-- ==== Sys2Proof/Laws/PerInstr.lean ====
section
/-! SUPPORT. The round trip of every constructor: its encoding, followed by any bytes, decodes to it and leaves them. -/

namespace Sys2Proof.Laws

/-- Two joined bytes as a number: low byte first (30_encoding.md R79). -/
theorem joinBytes_toNat (lo hi : Byte) : (joinBytes lo hi).toNat = hi.toNat * 256 + lo.toNat := by
  have := lo.isLt
  have := hi.isLt
  simp only [joinBytes, BitVec.toNat_ofNat]
  omega

/-- An address is its two bytes joined (30_encoding.md R79). -/
theorem joinBytes_split (w : Addr) : joinBytes (lowByte w) (highByte w) = w := by
  apply BitVec.eq_of_toNat_eq
  have := w.isLt
  simp only [joinBytes_toNat, lowByte, highByte, BitVec.toNat_ofNat]
  omega

/-- The low byte of two joined bytes. -/
theorem lowByte_joinBytes (lo hi : Byte) : lowByte (joinBytes lo hi) = lo := by
  apply BitVec.eq_of_toNat_eq
  have := lo.isLt
  simp only [lowByte, joinBytes_toNat, BitVec.toNat_ofNat]
  omega

/-- The high byte of two joined bytes. -/
theorem highByte_joinBytes (lo hi : Byte) : highByte (joinBytes lo hi) = hi := by
  apply BitVec.eq_of_toNat_eq
  have := lo.isLt
  have := hi.isLt
  simp only [highByte, joinBytes_toNat, BitVec.toNat_ofNat]
  omega

namespace RoundTrip

/-- The encoding of a well-formed instruction, followed by any bytes, decodes to it and leaves those bytes. -/
def Statement (i : Instr) : Prop :=
  i.wellFormed = true → ∀ rest, decode (encode i ++ rest) = .ok (i, rest)

/-- A three-byte form decodes to the instruction its row builds of the joined address. -/
theorem of_joined {f : Addr → Instr} {base : Addr} {rest : List Byte} {r : Except DecodeError (Instr × List Byte)}
    (h : r = .ok (f (joinBytes (lowByte base) (highByte base)), rest)) : r = .ok (f base, rest) := by
  rw [h, joinBytes_split]

theorem adcImm (imm : Byte) : Statement (.adcImm imm) := fun _ _ => rfl
theorem adcZp (zp : Byte) : Statement (.adcZp zp) := fun _ _ => rfl
theorem adcZpX (zp : Byte) : Statement (.adcZpX zp) := fun _ _ => rfl
theorem adcAbs (base : Addr) : Statement (.adcAbs base) := fun _ _ => of_joined (f := .adcAbs) rfl
theorem adcAbsX (base : Addr) : Statement (.adcAbsX base) := fun _ _ => of_joined (f := .adcAbsX) rfl
theorem adcAbsY (base : Addr) : Statement (.adcAbsY base) := fun _ _ => of_joined (f := .adcAbsY) rfl
theorem adcIndX (zp : Byte) : Statement (.adcIndX zp) := fun _ _ => rfl
theorem adcIndY (zp : Byte) : Statement (.adcIndY zp) := fun _ _ => rfl
theorem andImm (imm : Byte) : Statement (.andImm imm) := fun _ _ => rfl
theorem andZp (zp : Byte) : Statement (.andZp zp) := fun _ _ => rfl
theorem andZpX (zp : Byte) : Statement (.andZpX zp) := fun _ _ => rfl
theorem andAbs (base : Addr) : Statement (.andAbs base) := fun _ _ => of_joined (f := .andAbs) rfl
theorem andAbsX (base : Addr) : Statement (.andAbsX base) := fun _ _ => of_joined (f := .andAbsX) rfl
theorem andAbsY (base : Addr) : Statement (.andAbsY base) := fun _ _ => of_joined (f := .andAbsY) rfl
theorem andIndX (zp : Byte) : Statement (.andIndX zp) := fun _ _ => rfl
theorem andIndY (zp : Byte) : Statement (.andIndY zp) := fun _ _ => rfl
theorem cmpImm (imm : Byte) : Statement (.cmpImm imm) := fun _ _ => rfl
theorem cmpZp (zp : Byte) : Statement (.cmpZp zp) := fun _ _ => rfl
theorem cmpZpX (zp : Byte) : Statement (.cmpZpX zp) := fun _ _ => rfl
theorem cmpAbs (base : Addr) : Statement (.cmpAbs base) := fun _ _ => of_joined (f := .cmpAbs) rfl
theorem cmpAbsX (base : Addr) : Statement (.cmpAbsX base) := fun _ _ => of_joined (f := .cmpAbsX) rfl
theorem cmpAbsY (base : Addr) : Statement (.cmpAbsY base) := fun _ _ => of_joined (f := .cmpAbsY) rfl
theorem cmpIndX (zp : Byte) : Statement (.cmpIndX zp) := fun _ _ => rfl
theorem cmpIndY (zp : Byte) : Statement (.cmpIndY zp) := fun _ _ => rfl
theorem aslAcc : Statement .aslAcc := fun _ _ => rfl
theorem aslZp (zp : Byte) : Statement (.aslZp zp) := fun _ _ => rfl
theorem aslZpX (zp : Byte) : Statement (.aslZpX zp) := fun _ _ => rfl
theorem aslAbs (base : Addr) : Statement (.aslAbs base) := fun _ _ => of_joined (f := .aslAbs) rfl
theorem aslAbsX (base : Addr) : Statement (.aslAbsX base) := fun _ _ => of_joined (f := .aslAbsX) rfl
theorem bitZp (zp : Byte) : Statement (.bitZp zp) := fun _ _ => rfl
theorem bitAbs (base : Addr) : Statement (.bitAbs base) := fun _ _ => of_joined (f := .bitAbs) rfl
theorem bcc (off : Byte) : Statement (.bcc off) := fun _ _ => rfl
theorem bcs (off : Byte) : Statement (.bcs off) := fun _ _ => rfl
theorem beq (off : Byte) : Statement (.beq off) := fun _ _ => rfl
theorem bmi (off : Byte) : Statement (.bmi off) := fun _ _ => rfl
theorem bne (off : Byte) : Statement (.bne off) := fun _ _ => rfl
theorem bpl (off : Byte) : Statement (.bpl off) := fun _ _ => rfl
theorem bvc (off : Byte) : Statement (.bvc off) := fun _ _ => rfl
theorem bvs (off : Byte) : Statement (.bvs off) := fun _ _ => rfl
theorem clc : Statement .clc := fun _ _ => rfl
theorem cld : Statement .cld := fun _ _ => rfl
theorem cli : Statement .cli := fun _ _ => rfl
theorem clv : Statement .clv := fun _ _ => rfl
theorem brk : Statement .brk := fun _ _ => rfl

end RoundTrip

end Sys2Proof.Laws
end

