-- ==== Sys2Proof/Tests/Slice0.lean ====
section
/-! SUPPORT. The model's own tests: the checks of WellFormed refuse ill-formed terms, every constructor's word written
out from 30_encoding.md R81, the vectors of 95_test_vectors.md, and a witness for every statement with hypotheses. -/

namespace Sys2Proof.Tests

open Sys2Proof.Machine Sys2Proof.Claims

/-! Well-formedness: an ill-formed term for each check. -/

/-- Check 1 refuses ADC with a Relative mode (30_encoding.md R81). -/
theorem test_record_refuses_mode : OperationCode.wellFormed ⟨.adc, .relative, 2, 0⟩ = false := by decide

/-- Check 1 refuses ASL with Absolute Y and BIT with an index (30_encoding.md R81). -/
theorem test_record_refuses_index :
    OperationCode.wellFormed ⟨.asl, .absolute .y, 3, 0⟩ = false ∧
    OperationCode.wellFormed ⟨.bit, .zeroPage .x, 2, 0⟩ = false := by decide

/-- Check 2 refuses a record one byte too long (30_encoding.md R76). -/
theorem test_record_refuses_length : OperationCode.wellFormed ⟨.adc, .immediate, 3, 0⟩ = false := by decide

/-- A record that passes both checks. -/
theorem test_record_accepts : OperationCode.wellFormed ⟨.adc, .immediate, 2, 0⟩ = true := by decide

/-- A memory out of order, one that lists an unlisted cell's byte, and a device with a cell past its capacity. -/
theorem test_memory_refuses :
    Memory.wf [(5, 1), (3, 2)] = false ∧ Memory.wf [(5, 1), (5, 2)] = false ∧ Memory.wf [(5, 0)] = false ∧
    Device.wf ⟨0, 4, [(4, 1)]⟩ = false ∧ Device.wf ⟨0, 4, [(3, 1)]⟩ = true := by decide

/-! Every constructor's word, from 30_encoding.md R75 and R81. -/


theorem test_decode_adc :
    decode [0x69, 0xAB] = .ok (.adcImm 0xAB, []) ∧
    decode [0x65, 0xAB] = .ok (.adcZp 0xAB, []) ∧
    decode [0x75, 0xAB] = .ok (.adcZpX 0xAB, []) ∧
    decode [0x6D, 0xCD, 0x12] = .ok (.adcAbs 0x12CD, []) ∧
    decode [0x7D, 0xCD, 0x12] = .ok (.adcAbsX 0x12CD, []) ∧
    decode [0x79, 0xCD, 0x12] = .ok (.adcAbsY 0x12CD, []) ∧
    decode [0x61, 0xAB] = .ok (.adcIndX 0xAB, []) ∧
    decode [0x71, 0xAB] = .ok (.adcIndY 0xAB, []) := by
  exact ⟨rfl, rfl, rfl, rfl, rfl, rfl, rfl, rfl⟩

theorem test_decode_and :
    decode [0x29, 0xAB] = .ok (.andImm 0xAB, []) ∧
    decode [0x25, 0xAB] = .ok (.andZp 0xAB, []) ∧
    decode [0x35, 0xAB] = .ok (.andZpX 0xAB, []) ∧
    decode [0x2D, 0xCD, 0x12] = .ok (.andAbs 0x12CD, []) ∧
    decode [0x3D, 0xCD, 0x12] = .ok (.andAbsX 0x12CD, []) ∧
    decode [0x39, 0xCD, 0x12] = .ok (.andAbsY 0x12CD, []) ∧
    decode [0x21, 0xAB] = .ok (.andIndX 0xAB, []) ∧
    decode [0x31, 0xAB] = .ok (.andIndY 0xAB, []) := by
  exact ⟨rfl, rfl, rfl, rfl, rfl, rfl, rfl, rfl⟩

theorem test_decode_cmp :
    decode [0xC9, 0xAB] = .ok (.cmpImm 0xAB, []) ∧
    decode [0xC5, 0xAB] = .ok (.cmpZp 0xAB, []) ∧
    decode [0xD5, 0xAB] = .ok (.cmpZpX 0xAB, []) ∧
    decode [0xCD, 0xCD, 0x12] = .ok (.cmpAbs 0x12CD, []) ∧
    decode [0xDD, 0xCD, 0x12] = .ok (.cmpAbsX 0x12CD, []) ∧
    decode [0xD9, 0xCD, 0x12] = .ok (.cmpAbsY 0x12CD, []) ∧
    decode [0xC1, 0xAB] = .ok (.cmpIndX 0xAB, []) ∧
    decode [0xD1, 0xAB] = .ok (.cmpIndY 0xAB, []) := by
  exact ⟨rfl, rfl, rfl, rfl, rfl, rfl, rfl, rfl⟩

theorem test_decode_asl :
    decode [0x0A] = .ok (.aslAcc, []) ∧
    decode [0x06, 0xAB] = .ok (.aslZp 0xAB, []) ∧
    decode [0x16, 0xAB] = .ok (.aslZpX 0xAB, []) ∧
    decode [0x0E, 0xCD, 0x12] = .ok (.aslAbs 0x12CD, []) ∧
    decode [0x1E, 0xCD, 0x12] = .ok (.aslAbsX 0x12CD, []) := by
  exact ⟨rfl, rfl, rfl, rfl, rfl⟩

theorem test_decode_bit :
    decode [0x24, 0xAB] = .ok (.bitZp 0xAB, []) ∧
    decode [0x2C, 0xCD, 0x12] = .ok (.bitAbs 0x12CD, []) := by
  exact ⟨rfl, rfl⟩

theorem test_decode_branch :
    decode [0x90, 0xAB] = .ok (.bcc 0xAB, []) ∧
    decode [0xB0, 0xAB] = .ok (.bcs 0xAB, []) ∧
    decode [0xF0, 0xAB] = .ok (.beq 0xAB, []) ∧
    decode [0x30, 0xAB] = .ok (.bmi 0xAB, []) ∧
    decode [0xD0, 0xAB] = .ok (.bne 0xAB, []) ∧
    decode [0x10, 0xAB] = .ok (.bpl 0xAB, []) ∧
    decode [0x50, 0xAB] = .ok (.bvc 0xAB, []) ∧
    decode [0x70, 0xAB] = .ok (.bvs 0xAB, []) := by
  exact ⟨rfl, rfl, rfl, rfl, rfl, rfl, rfl, rfl⟩

theorem test_decode_implied :
    decode [0x18] = .ok (.clc, []) ∧
    decode [0xD8] = .ok (.cld, []) ∧
    decode [0x58] = .ok (.cli, []) ∧
    decode [0xB8] = .ok (.clv, []) ∧
    decode [0x00] = .ok (.brk, []) := by
  exact ⟨rfl, rfl, rfl, rfl, rfl⟩

/-- The same words as the table numbers their bits: the first byte is bits 7..0. -/
theorem test_decode_table_word :
    decodeTableWord 24 0x12CD6D = some (.adcAbs 0x12CD) ∧ decodeTableWord 8 0x12CD6D = some (.adcAbs 0x0000) ∧
    decodeTableWord 16 0xFEF0 = some (.beq 0xFE) ∧ decodeTableWord 8 0xFF = none := by
  exact ⟨rfl, rfl, rfl, rfl⟩

/-- A truncated word and an empty string are refused by name. -/
theorem test_decode_refuses :
    decode [0x6D, 0xCD] = .error (.truncated 0x6D) ∧ decode [] = .error .noBytes ∧
    decode [0xFF] = .error (.emptySlot 0xFF) := by
  exact ⟨rfl, rfl, rfl⟩

/-! One step each, from 95_test_vectors.md. -/

/-- A machine at reset but for a, p, x and y, with bytes at an address where pc stands, and one data byte. -/
def machine (a p x y : Byte) (pc : Addr) (bytes : List Byte) (dataAt : Addr) (data : Byte) : State :=
  let s : State := { State.reset with a := a, p := p, x := x, y := y, pc := pc }
  (s.loadImage pc bytes).hostWrite dataAt data

/-- What a test looks at after a step that goes on: a, p and pc. -/
def seen : Host.Outcome State Fault Refusal → Option (Byte × Byte × Addr)
  | .next t => some (t.a, t.p, t.pc)
  | _ => none

/-- The byte a step leaves at an address. -/
def leaves (w : Addr) : Host.Outcome State Fault Refusal → Option Byte
  | .next t => t.byteAt w
  | _ => none

/-- The fault of a step. -/
def faultOf : Host.Outcome State Fault Refusal → Option Fault
  | .fault f => some f
  | _ => none

/-- 95_test_vectors.md 2.1: positive overflow, V and N. -/
theorem test_adc_imm_overflow :
    seen (step (machine 0x7F 0x00 0x00 0x00 0x0000 [0x69, 0x01] 0x4000 0x00)) = some (0x80, 0x60, 0x0002) := by
  decide

/-- 95_test_vectors.md 2.1: D set, still binary. -/
theorem test_adc_imm_decimal_is_binary :
    seen (step (machine 0x00 0x0C 0x00 0x00 0x0000 [0x69, 0x00] 0x4000 0x00)) = some (0x00, 0x0E, 0x0002) := by
  decide

/-- 95_test_vectors.md 2.4. -/
theorem test_adc_zp :
    seen (step (machine 0x00 0x00 0x00 0x00 0x0000 [0x65, 0x10] 0x0010 0x33)) = some (0x33, 0x00, 0x0002) := by
  decide

/-- 95_test_vectors.md 2.4: the effective address is 0x0008. -/
theorem test_adc_zpx_wraps :
    seen (step (machine 0x00 0x00 0x10 0x00 0x0000 [0x75, 0xF8] 0x0008 0x44)) = some (0x44, 0x00, 0x0002) := by
  decide

/-- 95_test_vectors.md 2.4. -/
theorem test_adc_abs_low_byte_first :
    seen (step (machine 0x00 0x00 0x00 0x00 0x0000 [0x6D, 0x34, 0x12] 0x1234 0x55)) = some (0x55, 0x00, 0x0003) := by
  decide

/-- 95_test_vectors.md 2.4: the effective address is 0x0000, the opcode byte. -/
theorem test_adc_absx_wraps_to_zero :
    seen (step (machine 0x00 0x00 0x01 0x00 0x0000 [0x7D, 0xFF, 0xFF] 0x4000 0x00)) = some (0x7D, 0x00, 0x0003) := by
  decide

/-- 95_test_vectors.md 2.4. -/
theorem test_adc_absy :
    seen (step (machine 0x00 0x00 0x00 0x05 0x0000 [0x79, 0x00, 0x20] 0x2005 0x77)) = some (0x77, 0x00, 0x0003) := by
  decide

/-- 95_test_vectors.md 2.4. -/
theorem test_adc_indx_faults :
    faultOf (step (machine 0x00 0x00 0x00 0x00 0x0000 [0x61, 0x10] 0x4000 0x00)) = some (.unsupportedAddressingMode 0x0000 0x61 (.indirect .x)) := by
  decide

/-- 95_test_vectors.md 2.4. -/
theorem test_adc_indy_faults :
    faultOf (step (machine 0x00 0x00 0x00 0x00 0x0000 [0x71, 0x10] 0x4000 0x00)) = some (.unsupportedAddressingMode 0x0000 0x71 (.indirect .y)) := by
  decide

/-- 95_test_vectors.md 2.4. -/
theorem test_adc_abs_unmapped :
    faultOf (step (machine 0x00 0x00 0x00 0x00 0x0000 [0x6D, 0x00, 0x80] 0x4000 0x00)) = some (.unmappedRead 0x8000) := by
  decide

/-- 95_test_vectors.md 2.2. -/
theorem test_and_imm_zero :
    seen (step (machine 0xAA 0x01 0x00 0x00 0x0000 [0x29, 0x55] 0x4000 0x00)) = some (0x00, 0x03, 0x0002) := by
  decide

/-- 95_test_vectors.md 2.2. -/
theorem test_and_imm_keeps_c_v :
    seen (step (machine 0xFF 0x21 0x00 0x00 0x0000 [0x29, 0x80] 0x4000 0x00)) = some (0x80, 0x61, 0x0002) := by
  decide

/-- 95_test_vectors.md 2.3: V kept. -/
theorem test_asl_acc_carry :
    seen (step (machine 0xC0 0x20 0x00 0x00 0x0000 [0x0A] 0x4000 0x00)) = some (0x80, 0x61, 0x0001) := by
  decide

/-- 95_test_vectors.md 2.3 (S5). -/
theorem test_asl_abs_stores :
    leaves 0x0100 (step (machine 0x00 0x00 0x00 0x00 0x0000 [0x0E, 0x00, 0x01] 0x0100 0x02)) = some 0x04 := by
  decide

/-- 95_test_vectors.md 2.3. -/
theorem test_asl_zp_flags :
    seen (step (machine 0x00 0x00 0x00 0x00 0x0000 [0x06, 0x10] 0x0010 0x81)) = some (0x00, 0x01, 0x0002) := by
  decide

/-- 95_test_vectors.md 2.3. -/
theorem test_asl_zpx_stores_wrapped :
    leaves 0x0008 (step (machine 0x00 0x00 0x10 0x00 0x0000 [0x16, 0xF8] 0x0008 0x40)) = some 0x80 := by
  decide

/-- 95_test_vectors.md 2.3. -/
theorem test_asl_absx_unmapped :
    faultOf (step (machine 0x00 0x00 0x01 0x00 0x0000 [0x1E, 0xFE, 0x7F] 0x4000 0x00)) = some (.unmappedRead 0x7FFF) := by
  decide

/-- 95_test_vectors.md 2.5 (S7). -/
theorem test_beq_taken :
    seen (step (machine 0x00 0x02 0x00 0x00 0x0010 [0xF0, 0x05] 0x4000 0x00)) = some (0x00, 0x02, 0x0017) := by
  decide

/-- 95_test_vectors.md 2.5 (S7). -/
theorem test_beq_not_taken :
    seen (step (machine 0x00 0x00 0x00 0x00 0x0010 [0xF0, 0x05] 0x4000 0x00)) = some (0x00, 0x00, 0x0012) := by
  decide

/-- 95_test_vectors.md 2.5. -/
theorem test_bne_wraps :
    seen (step (machine 0x00 0x00 0x00 0x00 0x0010 [0xD0, 0x80] 0x4000 0x00)) = some (0x00, 0x00, 0xFF92) := by
  decide

/-- 95_test_vectors.md 2.5. -/
theorem test_bpl_taken :
    seen (step (machine 0x00 0x00 0x00 0x00 0x0010 [0x10, 0x7F] 0x4000 0x00)) = some (0x00, 0x00, 0x0091) := by
  decide

/-- 95_test_vectors.md 43_branches.md R144. -/
theorem test_bmi_taken :
    seen (step (machine 0x00 0x40 0x00 0x00 0x000C [0x30, 0x02] 0x4000 0x00)) = some (0x00, 0x40, 0x0010) := by
  decide

/-- 95_test_vectors.md 2.5. -/
theorem test_bcc_backward :
    seen (step (machine 0x00 0x00 0x00 0x00 0x0010 [0x90, 0xF0] 0x4000 0x00)) = some (0x00, 0x00, 0x0002) := by
  decide

/-- 95_test_vectors.md 2.5. -/
theorem test_bcs_taken :
    seen (step (machine 0x00 0x01 0x00 0x00 0x0010 [0xB0, 0x10] 0x4000 0x00)) = some (0x00, 0x01, 0x0022) := by
  decide

/-- 95_test_vectors.md 2.5. -/
theorem test_bvc_not_taken :
    seen (step (machine 0x00 0x20 0x00 0x00 0x0010 [0x50, 0x10] 0x4000 0x00)) = some (0x00, 0x20, 0x0012) := by
  decide

/-- 95_test_vectors.md 2.5. -/
theorem test_bvs_taken :
    seen (step (machine 0x00 0x20 0x00 0x00 0x0010 [0x70, 0x10] 0x4000 0x00)) = some (0x00, 0x20, 0x0022) := by
  decide

/-- 95_test_vectors.md 2.5: at 0x7FFE, not taken. -/
theorem test_beq_offset_always_read :
    faultOf (step (machine 0x00 0x00 0x00 0x00 0x7FFE [0xF0] 0x4000 0x00)) = some (.unmappedRead 0x7FFF) := by
  decide

/-- 95_test_vectors.md 2.6. -/
theorem test_clc :
    seen (step (machine 0x00 0xFF 0x00 0x00 0x0000 [0x18] 0x4000 0x00)) = some (0x00, 0xFE, 0x0001) := by
  decide

/-- 95_test_vectors.md 2.6. -/
theorem test_cld :
    seen (step (machine 0x00 0xFF 0x00 0x00 0x0000 [0xD8] 0x4000 0x00)) = some (0x00, 0xF7, 0x0001) := by
  decide

/-- 95_test_vectors.md 2.6. -/
theorem test_cli :
    seen (step (machine 0x00 0xFF 0x00 0x00 0x0000 [0x58] 0x4000 0x00)) = some (0x00, 0xFB, 0x0001) := by
  decide

/-- 95_test_vectors.md 2.6: Overflow is bit 5. -/
theorem test_clv :
    seen (step (machine 0x00 0x6F 0x00 0x00 0x0000 [0xB8] 0x4000 0x00)) = some (0x00, 0x4F, 0x0001) := by
  decide

/-- 95_test_vectors.md 2.7. -/
theorem test_bit_zp :
    seen (step (machine 0x0F 0x00 0x00 0x00 0x0000 [0x24, 0x10] 0x0010 0xC0)) = some (0x0F, 0x62, 0x0002) := by
  decide

/-- 95_test_vectors.md 2.7: V only. -/
theorem test_bit_abs :
    seen (step (machine 0x01 0x00 0x00 0x00 0x0000 [0x2C, 0x00, 0x02] 0x0200 0x41)) = some (0x01, 0x20, 0x0003) := by
  decide

/-- 95_test_vectors.md 2.7. -/
theorem test_cmp_less :
    seen (step (machine 0x10 0x00 0x00 0x00 0x0000 [0xC9, 0x20] 0x4000 0x00)) = some (0x10, 0x40, 0x0002) := by
  decide

/-- 95_test_vectors.md 2.7. -/
theorem test_cmp_equal_keeps_v :
    seen (step (machine 0x80 0x20 0x00 0x00 0x0000 [0xC9, 0x80] 0x4000 0x00)) = some (0x80, 0x23, 0x0002) := by
  decide

/-- 95_test_vectors.md 2.8. -/
theorem test_brk_faults :
    faultOf (step (machine 0x00 0x00 0x00 0x00 0x0005 [0x00] 0x4000 0x00)) = some (.unsupportedInstruction 0x0005 0x00) := by
  decide

/-- 95_test_vectors.md 2.8 (S8). -/
theorem test_unknown_opcode :
    faultOf (step (machine 0x00 0x00 0x00 0x00 0x0000 [0x02] 0x4000 0x00)) = some (.unknownOpcode 0x0000 0x02) := by
  decide

/-- 95_test_vectors.md 2.8. -/
theorem test_slot_ff_is_empty :
    faultOf (step (machine 0x00 0x00 0x00 0x00 0x0000 [0xFF] 0x4000 0x00)) = some (.unknownOpcode 0x0000 0xFF) := by
  decide

/-- 95_test_vectors.md 2.8. -/
theorem test_fetch_unmapped :
    faultOf (step (machine 0x00 0x00 0x00 0x00 0x7FFF [] 0x4000 0x00)) = some (.unmappedRead 0x7FFF) := by
  decide

/-- 95_test_vectors.md 60_exceptions.md R188: 0x7FFF is unmapped, and the mode faults first. -/
theorem test_indirect_before_operand_read :
    faultOf (step (machine 0x00 0x00 0x00 0x00 0x7FFE [0xC1] 0x4000 0x00)) = some (.unsupportedAddressingMode 0x7FFE 0xC1 (.indirect .x)) := by
  decide

/-- 95_test_vectors.md 2.9: overlapping devices, the first answers. -/
theorem test_first_device_shadows :
    ((busWrite [⟨0x0000, 0x0100, []⟩, ⟨0x0080, 0x0180, []⟩] 0x0090 0x05) =
      some [⟨0x0000, 0x0100, [(0x90, 0x05)]⟩, ⟨0x0080, 0x0180, []⟩]) ∧
    ((busWrite [⟨0x0000, 0x0100, []⟩, ⟨0x0080, 0x0180, []⟩] 0x0150 0x06) =
      some [⟨0x0000, 0x0100, []⟩, ⟨0x0080, 0x0180, [(0xD0, 0x06)]⟩]) := by
  decide

/-- 95_test_vectors.md 2.9: a device at another base is indexed by address minus base. -/
theorem test_fixed_indexing :
    busWrite [⟨0x8000, 0x1000, []⟩] 0x8001 0x5A = some [⟨0x8000, 0x1000, [(1, 0x5A)]⟩] ∧
    busRead [⟨0x8000, 0x1000, [(1, 0x5A)]⟩] 0x7000 = none := by
  decide

/-- 95_test_vectors.md 2.9: an unrouted host write is reported and changes no cell. -/
theorem test_unrouted_write :
    State.reset.hostWrite 0x7FFF 0x01 = { State.reset with reports := [.unroutedWrite 0x7FFF 0x01] } ∧
    State.reset.hostRead 0x7FFF = none := by
  decide

/-- 95_test_vectors.md 2.8: after a fault the machine is halted, all else as before, and faults again. -/
theorem test_fault_halts :
    (tickState (machine 1 2 3 4 5 [0x00] 0x4000 0)) =
      { machine 1 2 3 4 5 [0x00] 0x4000 0 with status := .halted (.unsupportedInstruction 5 0) } ∧
    faultOf (step (tickState (machine 1 2 3 4 5 [0x00] 0x4000 0))) = some (.unsupportedInstruction 5 0) := by
  decide

/-- The fault codes are the table's order (60_exceptions.md R180). -/
theorem test_fault_codes :
    (Fault.unknownOpcode 0 0).code = 0 ∧ (Fault.unsupportedAddressingMode 0 0 (.indirect .x)).code = 1 ∧
    (Fault.unsupportedInstruction 0 0).code = 2 ∧ (Fault.unmappedRead 0).code = 3 := by
  decide

/-- An instruction placed by the host's interface is the one the next step runs. -/
theorem test_with_fetch_word :
    seen (step (State.reset.withFetchWord 16 0x0169)) = some (0x01, 0x00, 0x0002) ∧
    seen (step (State.reset.withFetchWord 8 0xB8)) = some (0x00, 0x00, 0x0001) := by
  decide

/-- From reset with nothing placed the first step meets the byte 0x00, which is BRK (log entries 1 and 6). -/
theorem test_reset_runs_into_brk : faultOf (step State.reset) = some (.unsupportedInstruction 0x0000 0x00) := by
  decide

/-! Witnesses: a concrete state and operands that meet each statement's hypotheses together. -/

/-- A running machine with ADC abs at pc and a byte at its effective address. -/
def ready : State :=
  machine 0x01 0x00 0x02 0x03 0x0200 [0x6D, 0x10, 0x00] 0x0010 0x7F

/-- A machine whose one device ends before pc + 1. -/
def short (op : Byte) : State :=
  { State.reset with devices := [⟨0, 1, [(0, op)]⟩] }

theorem witness_DecodeOfEncodeIsTheInstruction : (Instr.adcAbs 0x1234).wellFormed = true := by decide

theorem witness_EncodeOfDecodeIsTheBytes : decode [0x61, 0x10, 0x77] = .ok (.adcIndX 0x10, [0x77]) := by rfl

theorem witness_OpcodeTableHas44WellFormedSlots :
    (∃ r, r ∈ opTable) ∧ ∃ r, lookup 0x69 = some r ∧ r.kind = .adc :=
  ⟨⟨_, List.mem_cons_self⟩, _, rfl, rfl⟩

theorem witness_StepRunsDecodedInstruction :
    ready.status = .running ∧ ready.holdsAt ready.pc [0x6D, 0x10, 0x00] ∧
      decode [0x6D, 0x10, 0x00] = .ok (.adcAbs 0x0010, []) :=
  ⟨by decide, ⟨by decide, by decide, by decide, trivial⟩, rfl⟩

theorem witness_LoadedInstructionRuns :
    State.reset.status = .running ∧ State.reset.wf = true ∧
      ∀ k < (encode (.adcAbs 0x1234)).length, (State.reset.byteAt (State.reset.pc + BitVec.ofNat 16 k)).isSome = true := by
  decide

/-- The clauses of the fault order, each met: an unmapped pc, an empty slot, an Indirect mode and BRK with pc + 1
unmapped, one-byte and two-byte operands cut short, and unmapped effective addresses. -/
theorem witness_FaultsComeInStageOrder :
    ({ State.reset with pc := 0x7FFF } : State).byteAt 0x7FFF = none ∧
    ((short 0x02).byteAt 0 = some 0x02 ∧ (lookup 0x02).isNone = true) ∧
    ((short 0x61).byteAt 0 = some 0x61 ∧ (lookup 0x61).map OperationCode.mode = some (.indirect .x)) ∧
    ((short 0xF0).byteAt 1 = none ∧ (lookup 0xF0).map OperationCode.mode = some .relative) ∧
    ((short 0x6D).byteAt 1 = none ∧ (lookup 0x6D).map OperationCode.mode = some (.absolute .none)) ∧
    (machine 0 0 0 0 0x7FFD [0x6D, 0x00] 0x4000 0).byteAt 0x7FFF = none ∧
    (({ State.reset with devices := [⟨0x100, 2, [(0, 0x65)]⟩] } : State).byteAt 0x0000 = none ∧
      (lookup 0x65).map OperationCode.mode = some (.zeroPage .none)) ∧
    (machine 0 0 0 0 0 [0x6D, 0x00, 0x80] 0x4000 0).byteAt (eaAbsolute State.reset .none (joinBytes 0x00 0x80)) = none ∧
    (lookup 0x00).map OperationCode.kind = some .brk := by
  decide

theorem witness_FaultNamesItsCause :
    (short 0x02).status = .running ∧ faultOf (step (short 0x02)) = some (.unknownOpcode 0 0x02) ∧
    faultOf (step (short 0x61)) = some (.unsupportedAddressingMode 0 0x61 (.indirect .x)) ∧
    faultOf (step (short 0x00)) = some (.unsupportedInstruction 0 0x00) ∧
    faultOf (step (short 0xF0)) = some (.unmappedRead 1) := by
  decide

theorem witness_FaultingTickOnlyHalts :
    faultOf (step (short 0x00)) = some (.unsupportedInstruction 0 0x00) ∧
    seen (step ready) = some (0x80, 0x60, 0x0203) := by
  decide

theorem witness_HaltedMachineRepeatsItsFault :
    ((State.reset.halt (.unmappedRead 0x7FFF)).status = .halted (.unmappedRead 0x7FFF)) := by
  decide

/-- A readable operand for each memory form of ADC, AND, CMP, BIT and ASL, at the ends of the mapped range too. -/
theorem witness_readable_operands :
    ready.byteAt (eaZeroPage ready .none 0x10) = some 0x7F ∧ ready.byteAt (eaZeroPage ready .x 0x0E) = some 0x7F ∧
    ready.byteAt (eaAbsolute ready .none 0x0010) = some 0x7F ∧ ready.byteAt (eaAbsolute ready .x 0x000E) = some 0x7F ∧
    ready.byteAt (eaAbsolute ready .y 0x000D) = some 0x7F ∧
    ready.byteAt (eaAbsolute ready .none 0x7FFE) = some 0x00 ∧ ready.byteAt (eaZeroPage ready .x 0xFF) = some 0x00 ∧
    ready.wf = true := by
  decide

/-- An unmapped operand for each memory mode. -/
theorem witness_UnmappedOperandTraps :
    (let s : State := { ready with devices := [] }
     s.byteAt (eaZeroPage s .none 0x10) = none ∧ s.byteAt (eaZeroPage s .x 0x10) = none) ∧
    ready.byteAt (eaAbsolute ready .none 0x7FFF) = none ∧ ready.byteAt (eaAbsolute ready .x 0x7FFD) = none ∧
    ready.byteAt (eaAbsolute ready .y 0xFFFC) = none := by
  decide

/-- ADC on `ready` and ASL A produce a register value; CMP does not. -/
theorem witness_RegisterResultsSetZeroAndNegative :
    seen (exec (.adcAbs 0x0010) ready) = some (0x80, 0x60, 0x0203) ∧ producesRegister (.adcAbs 0x0010) = true ∧
    seen (exec (.cmpAbs 0x0010) ready) = some (0x01, 0x40, 0x0203) ∧ producesRegister (.cmpAbs 0x0010) = false := by
  decide

/-- An instruction that goes on, and a run of one tick that meets no fault. -/
theorem witness_UnnamedStatusBitsAreKept :
    (∃ t, exec .clc ready = .next t) ∧ ∃ t : State, Host.Core.run Sys2Proof.core 1 ready = .next t :=
  ⟨⟨_, rfl⟩, ⟨_, (core_run_succ_eq_next Sys2Proof.core 0 ready _).mpr ⟨_, rfl, rfl⟩⟩⟩

theorem witness_ZeroPageResolves :
    (let s := machine 0 0 0x10 0 0 [0x75, 0xF8] 0x0008 0x44
     s.byteAt (s.pc + 1) = some 0xF8 ∧ s.byteAt (eaZeroPage s .x 0xF8) = some 0x44) ∧
    (short 0x65).byteAt ((short 0x65).pc + 1) = none ∧
    (let s : State := { ready with devices := [] }
     s.byteAt (eaZeroPage s .x 0x10) = none) := by
  decide

theorem witness_AbsoluteResolves :
    ready.byteAt (ready.pc + 1) = some 0x10 ∧ ready.byteAt (ready.pc + 2) = some 0x00 ∧
      ready.byteAt (eaAbsolute ready .none (joinBytes 0x10 0x00)) = some 0x7F := by
  decide

theorem witness_IndexedFormsAreUnindexedFromReset :
    State.reset.x = 0 ∧ State.reset.y = 0 ∧
      ∃ t : State, Host.Core.run Sys2Proof.core 0 State.reset = .next t :=
  ⟨rfl, rfl, _, rfl⟩

theorem witness_BusSelectsTheFirstDeviceInRange :
    (let d : Device := ⟨0x0080, 0x0180, []⟩
     let e : Device := ⟨0x0000, 0x0080, []⟩
     [e, d] = [e] ++ d :: [] ∧ InRange d 0x0080 ∧ ¬InRange e 0x0080 ∧ InRange e 0x007F ∧ ¬InRange d 0x0200) :=
  ⟨rfl, by unfold InRange Device.addressSpace; decide, by unfold InRange Device.addressSpace; decide,
    by unfold InRange Device.addressSpace; decide, by unfold InRange Device.addressSpace; decide⟩

theorem witness_DeviceIsDefinedOnlyInItsRange :
    busSelect State.reset.devices 0x7FFE = some ⟨0, 0x7FFF, []⟩ ∧ busSelect State.reset.devices 0x7FFF = none := by
  decide

theorem witness_DeviceCellIsAddressMinusBase :
    (let d : Device := ⟨0x8000, 0x8000, []⟩
     d.base ≤ (0xFFFF : Addr).toNat ∧ (0xFFFF : Addr).toNat < d.base + d.size ∧ d.wf = true) := by
  exact ⟨show (0x8000 : Nat) ≤ 0xFFFF by omega, show (0xFFFF : Nat) < 0x8000 + 0x8000 by omega, rfl⟩

theorem witness_WriteThenReadRoundTrips :
    State.reset.wf = true ∧ (State.reset.byteAt 0x1234).isSome = true ∧
      (∀ o ∈ [((0x1235 : Addr), (0x01 : Byte))], o.1 ≠ 0x1234) :=
  ⟨by decide, by decide, by simp⟩

theorem witness_UnroutedWriteIsReported :
    State.reset.hostRead 0x7FFF = none ∧ (State.reset.hostRead 0x7FFE).isSome = true := by
  decide

/-- A well-formed state whose step goes on, by a storing instruction: the invariants' hypotheses. -/
theorem witness_step_goes_on :
    (machine 0 0 0 0 0 [0x0E, 0x00, 0x01] 0x0100 0x02).wf = true ∧
      seen (step (machine 0 0 0 0 0 [0x0E, 0x00, 0x01] 0x0100 0x02)) = some (0x00, 0x00, 0x0003) := by
  decide

theorem witness_ResetIsConstruction :
    busRead [] 0x0000 = none ∧ busRead [⟨0, 1, [(0, 0x02)]⟩] 0x0000 = some 0x02 ∧ (lookup 0x02).isNone = true := by
  decide

end Sys2Proof.Tests
end

/-! PROOFS. The statements about the registers and the status byte of 10_state.md. -/

namespace Sys2Proof.Machine

open Sys2Proof.Claims

/-! What any instruction leaves alone (10_state.md R22, R24). -/

/-- Everything executing an instruction can change, if it goes on: a, p, pc and the devices. -/
theorem exec_next_frame {i : Instr} {s t : State} (h : exec i s = .next t) :
    ∃ a p pc ds, t = { s with a := a, p := p, pc := pc, devices := ds } := by
  obtain ⟨-, a, p, pc, rfl⟩ | ⟨-, hstored⟩ := exec_next_cases h
  · exact ⟨a, p, pc, s.devices, rfl⟩
  · obtain ⟨-, -, -, ds, p, pc, -, -, rfl⟩ := hstored.devices
    exact ⟨s.a, p, pc, ds, rfl⟩

/-- Everything a step can change, if it goes on: a, p, pc and the devices. -/
theorem step_next_frame {s t : State} (h : step s = .next t) :
    ∃ a p pc ds, t = { s with a := a, p := p, pc := pc, devices := ds } := by
  obtain ⟨-, i, -, hexec⟩ := step_next_cases h
  exact exec_next_frame hexec

/-! The status byte an instruction leaves, by its mnemonic (10_state.md R26, R27). -/

/-- The status byte after an instruction of a mnemonic, from the status byte and accumulator before and the operand's
value (41_adc_and.md R120, R125; 42_asl.md R130; 45_bit_cmp_brk.md R170, R171; 44_flag_clear.md R160 to R163). -/
def statusAfter : Mnemonic → (p a m : Byte) → Byte
  | .adc, p, a, m => adcStatus p a m
  | .and, p, a, m => withZN p (a &&& m)
  | .asl, p, _, m => aslStatus p m
  | .cmp, p, a, m => cmpStatus p a m
  | .bit, p, a, m => bitStatus p a m
  | .clc, p, _, _ => withFlag p .c false
  | .cld, p, _, _ => withFlag p .d false
  | .cli, p, _, _ => withFlag p .i false
  | .clv, p, _, _ => withFlag p .v false
  | .bcc, p, _, _ | .bcs, p, _, _ | .beq, p, _, _ | .bmi, p, _, _ | .bne, p, _, _ | .bpl, p, _, _
  | .bvc, p, _, _ | .bvs, p, _, _ | .brk, p, _, _ => p

/-- An instruction that goes on leaves the status byte of its mnemonic, for some value of its operand. -/
theorem exec_next_status {i : Instr} {s t : State} (h : exec i s = .next t) :
    ∃ m, t.p = statusAfter i.kind s.p s.a m := by
  cases i with
  | adcImm m | andImm m | cmpImm m => cases h; exact ⟨m, rfl⟩
  | aslAcc => cases h; exact ⟨s.a, rfl⟩
  | adcZp _ | adcZpX _ | adcAbs _ | adcAbsX _ | adcAbsY _
  | andZp _ | andZpX _ | andAbs _ | andAbsX _ | andAbsY _
  | cmpZp _ | cmpZpX _ | cmpAbs _ | cmpAbsX _ | cmpAbsY _
  | aslZp _ | aslZpX _ | aslAbs _ | aslAbsX _
  | bitZp _ | bitAbs _ =>
    obtain ⟨o, -, rfl⟩ := withOperand_eq_next.mp h
    exact ⟨o.value, rfl⟩
  | adcIndX _ | adcIndY _ | andIndX _ | andIndY _ | cmpIndX _ | cmpIndY _ | brk => cases h
  | bcc _ | bcs _ | beq _ | bmi _ | bne _ | bpl _ | bvc _ | bvs _ =>
    cases h
    exact ⟨0, State.branch_p s _ _⟩
  | clc | cld | cli | clv => cases h; exact ⟨0, rfl⟩

/-- A flag its mnemonic does not name as written is kept (10_state.md R26, R27). -/
theorem flagOf_statusAfter {k : Mnemonic} {f : Flag} (hf : f ∉ flagsWritten k) (p a m : Byte) :
    flagOf (statusAfter k p a m) f = flagOf p f := by
  cases k with
  | adc => rw [statusAfter, flagOf_adcStatus]; cases f <;> simp_all [flagsWritten]
  | and => rw [statusAfter, flagOf_withZN]; cases f <;> simp_all [flagsWritten]
  | asl => rw [statusAfter, flagOf_aslStatus]; cases f <;> simp_all [flagsWritten]
  | cmp => rw [statusAfter, flagOf_cmpStatus]; cases f <;> simp_all [flagsWritten]
  | bit => rw [statusAfter, flagOf_bitStatus]; cases f <;> simp_all [flagsWritten]
  | clc | cld | cli | clv => exact flagOf_withFlag_ne p false (by simpa [flagsWritten] using hf)
  | bcc | bcs | beq | bmi | bne | bpl | bvc | bvs | brk => rfl

/-- No mnemonic writes bit 7 (10_state.md R26). -/
theorem bit7_statusAfter (k : Mnemonic) (p a m : Byte) : (statusAfter k p a m)[7] = p[7] := by
  cases k <;> simp [statusAfter]

/-- An instruction that goes on keeps the flags it does not name as written, and bit 7. -/
theorem exec_next_flagsKept {i : Instr} {s t : State} (h : exec i s = .next t) :
    FlagsKept s t (flagsWritten i.kind) := by
  obtain ⟨m, hp⟩ := exec_next_status h
  constructor
  · intro f hf
    rw [State.flag, hp, flagOf_statusAfter hf, State.flag]
  · rw [hp]
    exact bit7_statusAfter i.kind s.p s.a m

/-- A step that goes on keeps bit 7 of p. -/
theorem step_next_bit7 {s t : State} (h : step s = .next t) : t.p.getLsbD 7 = s.p.getLsbD 7 := by
  obtain ⟨-, i, -, hexec⟩ := step_next_cases h
  exact (exec_next_flagsKept hexec).2

/-! A state with its stack pointer replaced: every stage of a tick commutes with the replacement (10_state.md R22). -/

/-- The state with its stack pointer replaced. -/
def State.setSp (s : State) (v : Byte) : State :=
  { s with sp := v }

/-- The fetch does not read the stack pointer. -/
theorem fetchInstr_setSp (s : State) (v : Byte) : fetchInstr (s.setSp v) = fetchInstr s := rfl

/-- A Bus write neither reads nor writes the stack pointer. -/
theorem State.memWrite_setSp (s : State) (v : Byte) (w : Addr) (b : Byte) :
    (s.setSp v).memWrite w b = (s.memWrite w b).setSp v := by
  cases h : busWrite s.devices w b with
  | some ds => rw [State.memWrite_of_some h, State.memWrite_of_some (s := s.setSp v) h]; rfl
  | none => rw [State.memWrite_of_none h, State.memWrite_of_none (s := s.setSp v) h]; rfl

/-- ASL neither reads nor writes the stack pointer. -/
theorem aslHandler_setSp (o : Operand) (len : Nat) (s : State) (v : Byte) :
    aslHandler o len (s.setSp v) = (aslHandler o len s).setSp v := by
  obtain ⟨_ | ea, b, n⟩ := o
  · rfl
  · rw [aslHandler_mem_eq, aslHandler_mem_eq, State.memWrite_setSp]
    rfl

/-- A branch neither reads nor writes the stack pointer. -/
theorem State.branch_setSp (s : State) (c : Bool) (off v : Byte) :
    (s.setSp v).branch c off = (s.branch c off).setSp v := by
  cases c <;> rfl

/-- Where a change of state commutes with an instruction's handler, it commutes with the instruction. -/
theorem withOperand_mapNext {k k' : Operand → State} {f : State → State} (hk : ∀ o, k' o = f (k o))
    (r : Except Fault Operand) : withOperand r k' = mapNext f (withOperand r k) := by
  cases r with
  | ok o => exact congrArg Host.Outcome.next (hk o)
  | error e => rfl

/-- Executing an instruction neither reads nor writes the stack pointer. -/
theorem exec_setSp (i : Instr) (s : State) (v : Byte) :
    exec i (s.setSp v) = mapNext (fun t => t.setSp v) (exec i s) := by
  cases i with
  | adcImm _ | andImm _ | cmpImm _ | aslAcc => rfl
  | adcZp _ | adcZpX _ | adcAbs _ | adcAbsX _ | adcAbsY _
  | andZp _ | andZpX _ | andAbs _ | andAbsX _ | andAbsY _
  | cmpZp _ | cmpZpX _ | cmpAbs _ | cmpAbsX _ | cmpAbsY _
  | bitZp _ | bitAbs _ =>
    refine withOperand_mapNext (fun _ => ?_) _
    rfl
  | aslZp _ | aslZpX _ | aslAbs _ | aslAbsX _ =>
    exact withOperand_mapNext (fun o => aslHandler_setSp o _ s v) _
  | adcIndX _ | adcIndY _ | andIndX _ | andIndY _ | cmpIndX _ | cmpIndY _ | brk => rfl
  | bcc _ | bcs _ | beq _ | bmi _ | bne _ | bpl _ | bvc _ | bvs _ =>
    exact congrArg Host.Outcome.next (State.branch_setSp s _ _ v)
  | clc | cld | cli | clv => rfl

/-- A step neither reads nor writes the stack pointer. -/
theorem step_setSp (s : State) (v : Byte) : step (s.setSp v) = mapNext (fun t => t.setSp v) (step s) := by
  cases hs : s.status with
  | halted f => rw [step_halted hs, step_halted (s := s.setSp v) hs]; rfl
  | running =>
    rw [step_running hs, step_running (s := s.setSp v) hs, fetchInstr_setSp]
    cases fetchInstr s with
    | error f => rfl
    | ok i => exact exec_setSp i s v

/-! The statements. -/

/-- Settles O24: the flags by the status byte each mnemonic leaves, bit 7 along a run by induction on its ticks. -/
theorem unnamedStatusBitsAreKept : Obligations.UnnamedStatusBitsAreKept := by
  unfold Obligations.UnnamedStatusBitsAreKept
  constructor
  · intro i s t h
    exact exec_next_flagsKept h
  · exact run_induction (P := fun s t => t.p.getLsbD 7 = s.p.getLsbD 7) (fun _ => rfl)
      (fun _ _ _ hstep hrun => hrun.trans (step_next_bit7 hstep))

/-- Settles O38: replacing the stack pointer commutes with a step, and a step's frame holds it. -/
theorem stackPointerIsNeitherReadNorWritten : Obligations.StackPointerIsNeitherReadNorWritten := by
  unfold Obligations.StackPointerIsNeitherReadNorWritten
  refine ⟨step_setSp, ?_, fun _ _ => ⟨rfl, fun _ => rfl⟩, fun _ _ => rfl⟩
  intro s t h
  obtain ⟨-, -, -, -, rfl⟩ := step_next_frame h
  rfl

end Sys2Proof.Machine

/-! PROOFS. The statements about the devices and the Bus of 20_memory.md. -/

namespace Sys2Proof.Machine

open Sys2Proof.Claims

/-! A device answers in its own range and nowhere else (20_memory.md R42). -/

/-- The range the statements speak of is the check a device makes. -/
theorem inRange_iff_maps {d : Device} {w : Addr} : InRange d w ↔ d.maps w = true := by
  simp only [InRange, Device.addressSpace, Device.maps, Bool.and_eq_true, decide_eq_true_eq]

/-- A device answers a read exactly in its range. -/
theorem Device.read_isSome_iff (d : Device) (w : Addr) : (d.read w).isSome = true ↔ InRange d w := by
  rw [inRange_iff_maps]
  cases h : d.maps w <;> simp [Device.read, h]

/-- A device answers a write exactly in its range. -/
theorem Device.write_isSome_iff (d : Device) (w : Addr) (v : Byte) :
    (d.write w v).isSome = true ↔ InRange d w := by
  rw [inRange_iff_maps]
  cases h : d.maps w <;> simp [Device.write, h]

/-! The Bus selects the first device whose range holds the address (20_memory.md R49, R50). -/

/-- The Bus selects no device exactly where no range holds the address. -/
theorem busSelect_eq_none_iff {ds : List Device} {w : Addr} :
    busSelect ds w = none ↔ ∀ d ∈ ds, ¬InRange d w := by
  simp only [busSelect, List.find?_eq_none, inRange_iff_maps]

/-- The Bus selects a device exactly where its range holds the address and no earlier device's does. -/
theorem busSelect_eq_some_iff {ds : List Device} {w : Addr} {d : Device} :
    busSelect ds w = some d ↔
      ∃ before after, ds = before ++ d :: after ∧ InRange d w ∧ ∀ e ∈ before, ¬InRange e w := by
  simp only [busSelect, List.find?_eq_some_iff_append, inRange_iff_maps, Bool.not_eq_true',
    Bool.not_eq_true]
  constructor
  · rintro ⟨hd, before, after, hds, hbefore⟩
    exact ⟨before, after, hds, hd, hbefore⟩
  · rintro ⟨before, after, hds, hd, hbefore⟩
    exact ⟨hd, before, after, hds, hbefore⟩

/-- The Bus selects only a device whose range holds the address. -/
theorem inRange_of_busSelect {ds : List Device} {w : Addr} {d : Device} (h : busSelect ds w = some d) :
    InRange d w := by
  obtain ⟨-, -, -, hd, -⟩ := busSelect_eq_some_iff.mp h
  exact hd

/-- A Bus read is the selected device's read. -/
theorem busRead_of_busSelect {ds : List Device} {w : Addr} {d : Device} (h : busSelect ds w = some d) :
    busRead ds w = d.read w := by
  rw [busRead, h, Option.bind_some]

/-- A Bus write is the write of the first device in range, with every other device left as it was. -/
theorem busWrite_append_cons {before after : List Device} {d : Device} {w : Addr} (v : Byte)
    (hd : InRange d w) (hbefore : ∀ e ∈ before, ¬InRange e w) :
    busWrite (before ++ d :: after) w v = (d.write w v).map (fun d' => before ++ d' :: after) := by
  induction before with
  | nil => exact if_pos (inRange_iff_maps.mp hd)
  | cons e rest ih =>
    obtain ⟨he, hrest⟩ := List.forall_mem_cons.mp hbefore
    have hskip : busWrite (e :: (rest ++ d :: after)) w v =
        (busWrite (rest ++ d :: after) w v).map (fun ds' => e :: ds') :=
      if_neg (mt inRange_iff_maps.mpr he)
    rw [List.cons_append, hskip, ih hrest, Option.map_map]
    rfl

/-! A write is read back, past any writes elsewhere (20_memory.md R54). -/

/-- A write to a mapped address is read back, where memory is in canonical form. -/
theorem State.byteAt_memWrite_self {s : State} {w : Addr} (v : Byte) (hwf : s.wf = true)
    (hmapped : (s.byteAt w).isSome = true) : (s.memWrite w v).byteAt w = some v := by
  obtain ⟨ds, hds, hwrite⟩ := State.memWrite_of_mapped v hmapped
  rw [hwrite]
  exact busRead_busWrite_self hds hwf

/-- Writes to other addresses leave a byte as it was. -/
theorem State.byteAt_foldl_memWrite_ne {w : Addr} {others : List (Addr × Byte)} (s : State)
    (h : ∀ o ∈ others, o.1 ≠ w) :
    (others.foldl (fun u o => u.memWrite o.1 o.2) s).byteAt w = s.byteAt w := by
  induction others generalizing s with
  | nil => rfl
  | cons o rest ih =>
    obtain ⟨ho, hrest⟩ := List.forall_mem_cons.mp h
    rw [List.foldl_cons, ih _ hrest, State.byteAt_memWrite_ne o.2 ho.symm]

/-! The statements. -/

/-- Settles O29: the selection is the first match in the list, and a write passes the devices before it by. -/
theorem busSelectsTheFirstDeviceInRange : Obligations.BusSelectsTheFirstDeviceInRange := by
  unfold Obligations.BusSelectsTheFirstDeviceInRange
  intro ds w
  refine ⟨busSelect_eq_none_iff, fun d => busSelect_eq_some_iff, ?_⟩
  rintro before d after v rfl hd hbefore
  exact ⟨busRead_of_busSelect (busSelect_eq_some_iff.mpr ⟨before, after, rfl, hd, hbefore⟩),
    busWrite_append_cons v hd hbefore⟩

/-- Settles O32: the write is read back at once, and the writes elsewhere keep it, by induction on them. -/
theorem writeThenReadRoundTrips : Obligations.WriteThenReadRoundTrips := by
  unfold Obligations.WriteThenReadRoundTrips
  intro s w v others hwf hmapped hothers
  rw [State.byteAt_foldl_memWrite_ne _ hothers, State.byteAt_memWrite_self v hwf hmapped]

/-- Settles O30: a device answers exactly in its range, and the device the Bus selects is in range. -/
theorem deviceIsDefinedOnlyInItsRange : Obligations.DeviceIsDefinedOnlyInItsRange := by
  unfold Obligations.DeviceIsDefinedOnlyInItsRange
  refine ⟨fun d w v => ⟨d.read_isSome_iff w, d.write_isSome_iff w v⟩, fun ds w d v hsel => ?_⟩
  have hd : InRange d w := inRange_of_busSelect hsel
  exact ⟨(d.read_isSome_iff w).mpr hd, (d.write_isSome_iff w v).mpr hd⟩

end Sys2Proof.Machine

/-! PROOFS. The statement about Accumulator mode and index selection of 40_pipeline_and_addressing.md. -/

namespace Sys2Proof.Machine

open Sys2Proof.Claims

/-! Index selection: no register gives 0 (40_pipeline_and_addressing.md R100). -/

@[simp] theorem State.index_none (s : State) : s.index .none = 0 := rfl

@[simp] theorem State.index_x (s : State) : s.index .x = s.x := rfl

@[simp] theorem State.index_y (s : State) : s.index .y = s.y := rfl

/-! Accumulator mode: the accumulator itself, and no operand byte (40_pipeline_and_addressing.md R95). -/

/-- The resolved operand holds the accumulator of any state, whatever else that state holds. -/
theorem resolveAccumulator_eq (s : State) : resolveAccumulator s = { loc := .acc, value := s.a, extra := 0 } := rfl

/-- The fetch of operands cannot fault: it makes no Bus read. -/
theorem fetchOperands_accumulator (s : State) : fetchOperands s .accumulator = .ok (0, 0) := rfl

/-! The statement. -/

/-- Settles O25: Accumulator mode names no device, so its two rules hold of the state with any devices put in. -/
theorem accumulatorAndIndexSelection : Obligations.AccumulatorAndIndexSelection := by
  unfold Obligations.AccumulatorAndIndexSelection
  intro s ds
  exact ⟨resolveAccumulator_eq { s with devices := ds }, fetchOperands_accumulator { s with devices := ds },
    s.index_none, s.index_x, s.index_y⟩

end Sys2Proof.Machine

/-! PROOFS. The statements about ADC and AND of 41_adc_and.md. -/

namespace Sys2Proof.Machine

open Sys2Proof.Claims

/-! What the executing forms share: the frame of a register handler, and a form that reads its operand from memory. -/

/-- A step that changes a, p and pc at most keeps the rest of the machine. -/
theorem OnlyRegs.restKept {s t : State} (h : OnlyRegs s t) : RestKept s t := by
  have hbytes : ∀ w, t.byteAt w = s.byteAt w := State.byteAt_congr h.devices
  obtain ⟨a, p, pc, rfl⟩ := h
  exact ⟨rfl, rfl, rfl, rfl, rfl, rfl, hbytes⟩

/-- Where a handler has an effect for every operand, the instruction that reads its operand at a mapped effective
address goes on with that effect (40_pipeline_and_addressing.md R101, R105). -/
theorem withOperand_next_effect {s : State} {ea : Addr} {m : Byte} {k : Operand → State}
    {effect : Byte → State → Prop} (hk : ∀ o, effect o.value (k o)) (hm : s.byteAt ea = some m) :
    ∃ t, withOperand (resolveAt s ea) k = .next t ∧ effect m t :=
  ⟨_, withOperand_of_some k hm, hk { loc := .mem ea, value := m, extra := 0 }⟩

/-! ADC (41_adc_and.md R120 to R122). -/

/-- The handler of ADC keeps I, D, B and bit 7 of p (10_state.md R26, R27). -/
theorem adcHandler_flagsKept (o : Operand) (len : Nat) (s : State) :
    FlagsKept s (adcHandler o len s) [.c, .v, .z, .n] := by
  have hsub : flagsWritten .adc ⊆ [.c, .v, .z, .n] := by decide
  exact ⟨fun f hf => flagOf_statusAfter (mt (@hsub f) hf) s.p s.a o.value, bit7_adcStatus s.p s.a o.value⟩

/-- The handler of ADC has ADC's effect, for every operand and length. -/
theorem adcHandler_effect (o : Operand) (len : Nat) (s : State) :
    AdcEffect s o.value len (adcHandler o len s) := by
  have hflag := flagOf_adcStatus s.p s.a o.value
  exact ⟨adcResult_toNat s.a o.value (s.flag .c), hflag .c, hflag .v, hflag .z, hflag .n,
    adcHandler_flagsKept o len s, rfl, (adc_onlyRegs len s o).restKept⟩

/-! The statement. -/

/-- Settles O12: the immediate form carries its operand, the memory forms read it, and the handler does the rest. -/
theorem adcAddsWithCarry : Obligations.AdcAddsWithCarry := by
  unfold Obligations.AdcAddsWithCarry
  intro s
  have hmem : ∀ {ea : Addr} {m : Byte} (len : Nat), s.byteAt ea = some m →
      ∃ t, withOperand (resolveAt s ea) (fun o => adcHandler o len s) = .next t ∧ AdcEffect s m len t :=
    fun len => withOperand_next_effect (effect := fun m => AdcEffect s m len) (adcHandler_effect · len s)
  exact ⟨fun m => ⟨_, rfl, adcHandler_effect (resolveImmediate s m) 2 s⟩, fun _ _ => hmem 2, fun _ _ => hmem 2,
    fun _ _ => hmem 3, fun _ _ => hmem 3, fun _ _ => hmem 3⟩

end Sys2Proof.Machine

/-! PROOFS. The statement about ASL A of 42_asl.md. -/

namespace Sys2Proof.Machine

open Sys2Proof.Claims

/-! The flags ASL leaves, whatever its operand (42_asl.md R130). -/

/-- The Zero rule of the ASL result, on integers (42_asl.md R130). -/
theorem zeroFlag_aslResult (v : Byte) : zeroFlag (aslResult v) = decide (v.toNat * 2 % 256 = 0) := by
  rw [← aslResult_toNat]
  exact decide_eq_decide.mpr BitVec.toNat_inj.symm

/-- A state whose status byte is the one ASL leaves of the operand has ASL's flags: C, Z and N by the rule, the four
others and bit 7 kept (10_state.md R26, R27). -/
theorem aslFlags_of_aslStatus {s t : State} {m : Byte} (hp : t.p = aslStatus s.p m) : AslFlags s m t := by
  have hflag : ∀ f, t.flag f = flagOf (aslStatus s.p m) f := fun f => congrArg (flagOf · f) hp
  have hkept : FlagsKept s t (flagsWritten .asl) :=
    ⟨fun f hf => (hflag f).trans (flagOf_statusAfter hf s.p s.a m), hp ▸ bit7_aslStatus s.p m⟩
  refine ⟨?_, ?_, ?_, hkept⟩
  · rw [hflag, flagOf_aslStatus]
  · rw [hflag, flagOf_aslStatus, zeroFlag_aslResult]
  · rw [hflag, flagOf_aslStatus]
    rfl

/-! ASL A on any state (42_asl.md R130). -/

/-- ASL A always goes on: it replaces a, p and pc. -/
theorem exec_aslAcc (s : State) :
    exec .aslAcc s = .next { s with a := aslResult s.a, p := aslStatus s.p s.a, pc := s.pc + 1 } :=
  congrArg Host.Outcome.next (aslHandler_acc_eq s.a 0 1 s)

/-! The statement. -/

/-- Settles O17: ASL A round-trips as every instruction does, and the state it goes on to differs in a, p and pc only,
which the rules of the ASL result and status describe. -/
theorem aslAccumulatorDoubles : Obligations.AslAccumulatorDoubles := by
  unfold Obligations.AslAccumulatorDoubles
  refine ⟨rfl, Laws.RoundTrip.aslAcc rfl, fun s => ⟨_, exec_aslAcc s, aslResult_toNat s.a, ?_, rfl, ?_⟩⟩
  · exact aslFlags_of_aslStatus rfl
  · exact OnlyRegs.restKept ⟨_, _, _, rfl⟩

end Sys2Proof.Machine

/-! PROOFS. The statement about the flag clears of 44_flag_clear.md. -/

namespace Sys2Proof.Machine

/-! Clearing one flag and moving past a one-byte instruction (44_flag_clear.md R160 to R163). -/

/-- Clearing a flag keeps the bits of p outside the flag's own mask; with the advance by one, only p and pc change. -/
theorem State.clearFlag_advance_one {f : Flag} {m : Byte} (hm : ~~~f.mask = m) (s : State) :
    (s.setFlag f false).advance 1 = { s with p := s.p &&& m, pc := s.pc + 1 } := by
  subst hm
  rfl

/-! The masks of the four clears, from the bit positions of the flags (10_state.md R25). -/

theorem Flag.not_mask_c : ~~~Flag.c.mask = 0xFE := by decide
theorem Flag.not_mask_d : ~~~Flag.d.mask = 0xF7 := by decide
theorem Flag.not_mask_i : ~~~Flag.i.mask = 0xFB := by decide
theorem Flag.not_mask_v : ~~~Flag.v.mask = 0xDF := by decide

/-! The statement. -/

/-- Settles O20: the four bytes round-trip as every encoding does, and each clear is the one-flag clear of its own
flag, whose mask is the rule's. -/
theorem flagClearsClearOneBit : Obligations.FlagClearsClearOneBit := by
  unfold Obligations.FlagClearsClearOneBit
  refine ⟨⟨rfl, rfl, rfl, rfl⟩, fun rest => ?decode, fun s => ?exec⟩
  case decode =>
    exact ⟨Laws.RoundTrip.clc rfl rest, Laws.RoundTrip.cld rfl rest, Laws.RoundTrip.cli rfl rest,
      Laws.RoundTrip.clv rfl rest⟩
  case exec =>
    exact ⟨congrArg Host.Outcome.next (s.clearFlag_advance_one Flag.not_mask_c),
      congrArg Host.Outcome.next (s.clearFlag_advance_one Flag.not_mask_d),
      congrArg Host.Outcome.next (s.clearFlag_advance_one Flag.not_mask_i),
      congrArg Host.Outcome.next (s.clearFlag_advance_one Flag.not_mask_v)⟩

end Sys2Proof.Machine

/-! PROOFS. The statements about the opcode table, the decoder and the encoder of 30_encoding.md. -/

namespace Sys2Proof.Laws

/-- Every instruction's encoding decodes to it, constructor by constructor (30_encoding.md R75, R81). -/
theorem RoundTrip.statement : ∀ i, Statement i
  | .adcImm imm => adcImm imm
  | .adcZp zp => adcZp zp
  | .adcZpX zp => adcZpX zp
  | .adcAbs base => adcAbs base
  | .adcAbsX base => adcAbsX base
  | .adcAbsY base => adcAbsY base
  | .adcIndX zp => adcIndX zp
  | .adcIndY zp => adcIndY zp
  | .andImm imm => andImm imm
  | .andZp zp => andZp zp
  | .andZpX zp => andZpX zp
  | .andAbs base => andAbs base
  | .andAbsX base => andAbsX base
  | .andAbsY base => andAbsY base
  | .andIndX zp => andIndX zp
  | .andIndY zp => andIndY zp
  | .cmpImm imm => cmpImm imm
  | .cmpZp zp => cmpZp zp
  | .cmpZpX zp => cmpZpX zp
  | .cmpAbs base => cmpAbs base
  | .cmpAbsX base => cmpAbsX base
  | .cmpAbsY base => cmpAbsY base
  | .cmpIndX zp => cmpIndX zp
  | .cmpIndY zp => cmpIndY zp
  | .aslAcc => aslAcc
  | .aslZp zp => aslZp zp
  | .aslZpX zp => aslZpX zp
  | .aslAbs base => aslAbs base
  | .aslAbsX base => aslAbsX base
  | .bitZp zp => bitZp zp
  | .bitAbs base => bitAbs base
  | .bcc off => bcc off
  | .bcs off => bcs off
  | .beq off => beq off
  | .bmi off => bmi off
  | .bne off => bne off
  | .bpl off => bpl off
  | .bvc off => bvc off
  | .bvs off => bvs off
  | .clc => clc
  | .cld => cld
  | .cli => cli
  | .clv => clv
  | .brk => brk

/-- No instruction is ill formed: its constructor fixes its mnemonic and its mode (30_encoding.md R81). -/
theorem instr_wellFormed (i : Instr) : i.wellFormed = true := by
  cases i <;> rfl

/-- An encoding is as long as its mode says (30_encoding.md R76). -/
theorem encode_length (i : Instr) : (encode i).length = i.mode.length := by
  cases i <;> rfl

/-- No encoding is longer than three bytes (30_encoding.md R76). -/
theorem encode_length_le (i : Instr) : (encode i).length ≤ 3 := by
  rw [encode_length]
  cases i.mode <;> simp [Mode.length]

/-! The rows of the opcode table (30_encoding.md R81). -/

/-- The bytes an Absolute form's row is built of are the ones it encodes to (30_encoding.md R79). -/
theorem encodeAbs_joinBytes (op lo hi : Byte) : encodeAbs op (joinBytes lo hi) = [op, lo, hi] := by
  rw [encodeAbs, lowByte_joinBytes, highByte_joinBytes]

/-- What each row builds: an instruction of its own mnemonic and mode, whose encoding is the row's opcode and the
operand bytes its mode has. -/
theorem row_build {r : Row} (hr : r ∈ opTable) (lo hi : Byte) :
    (r.build lo hi).kind = r.kind ∧ (r.build lo hi).mode = r.mode ∧
      encode (r.build lo hi) = r.opcode :: [lo, hi].take r.mode.operandCount := by
  revert r
  rw [← List.forall_iff_forall_mem]
  simp only [opTable, rowsLow, rowsMid, rowsHigh, rowsTop, List.cons_append, List.nil_append, List.Forall,
    encode, encodeAbs_joinBytes, Instr.kind, Instr.mode, Mode.operandCount, List.take, and_self]

/-- Each row's mnemonic takes its mode (30_encoding.md R81). -/
theorem row_takes : ∀ r ∈ opTable, r.kind.takes r.mode = true := by
  decide

/-- An instruction's length is one more than its operand bytes (30_encoding.md R76). -/
theorem mode_length (m : Mode) : m.length = 1 + m.operandCount := by
  cases m <;> rfl

/-- Each row builds a well-formed instruction. -/
theorem row_build_wellFormed {r : Row} (hr : r ∈ opTable) (lo hi : Byte) : (r.build lo hi).wellFormed = true := by
  obtain ⟨hkind, hmode, -⟩ := row_build hr lo hi
  rw [Instr.wellFormed, hkind, hmode]
  exact row_takes r hr

/-- Each row's record is well formed. -/
theorem row_code_wellFormed {r : Row} (hr : r ∈ opTable) : r.code.wellFormed = true := by
  rw [OperationCode.wellFormed, OperationCode.lengthFits, Bool.and_eq_true, beq_iff_eq]
  exact ⟨row_takes r hr, mode_length r.mode⟩

/-- A record is read exactly where a row is found, and it is that row's record (30_encoding.md R72). -/
theorem lookup_eq_some {op : Byte} {c : OperationCode} :
    lookup op = some c ↔ ∃ r, findRow op = some r ∧ r.code = c :=
  Option.map_eq_some_iff

/-- A slot is empty exactly where no row is found (30_encoding.md R72). -/
theorem lookup_eq_none {op : Byte} : lookup op = none ↔ findRow op = none :=
  Option.map_eq_none_iff

/-- A row takes off a byte string exactly the operand bytes of its mode, and builds its instruction of them. -/
theorem row_take_eq_ok {r : Row} {bytes rest : List Byte} {i : Instr} (h : r.take bytes = .ok (i, rest)) :
    ∃ lo hi, i = r.build lo hi ∧ bytes = [lo, hi].take r.mode.operandCount ++ rest := by
  obtain ⟨op, kind, mode, build⟩ := r
  cases mode with
  | accumulator | implied => cases h; exact ⟨0, 0, rfl, rfl⟩
  | immediate | zeroPage _ | indirect _ | relative =>
    cases bytes with
    | nil => cases h
    | cons b bs => cases h; exact ⟨b, 0, rfl, rfl⟩
  | absolute j =>
    match bytes, h with
    | lo :: hi :: bs, h => cases h; exact ⟨lo, hi, rfl, rfl⟩

/-! The statements. -/

/-- Settles O1: every constructor round-trips. -/
theorem decodeOfEncodeIsTheInstruction : Obligations.DecodeOfEncodeIsTheInstruction := by
  unfold Obligations.DecodeOfEncodeIsTheInstruction
  intro i rest hwf
  exact RoundTrip.statement i hwf rest

/-- Settles O2: the row found for the opcode byte takes its mode's operand bytes, and builds a well-formed instruction
that encodes to the opcode and those bytes. -/
theorem encodeOfDecodeIsTheBytes : Obligations.EncodeOfDecodeIsTheBytes := by
  unfold Obligations.EncodeOfDecodeIsTheBytes
  intro bytes rest i h
  cases bytes with
  | nil => cases h
  | cons op tail =>
    rw [decode] at h
    cases hrow : findRow op with
    | none => rw [hrow] at h; cases h
    | some r =>
      rw [hrow] at h
      obtain ⟨hmem, rfl⟩ := Machine.findRow_mem hrow
      obtain ⟨lo, hi, rfl, rfl⟩ := row_take_eq_ok h
      obtain ⟨-, -, hencode⟩ := row_build hmem lo hi
      exact ⟨row_build_wellFormed hmem lo hi, by rw [hencode, List.cons_append]⟩

/-- Settles O3: the counts by evaluation of the table, the rest row by row. -/
theorem opcodeTableHas44WellFormedSlots : Obligations.OpcodeTableHas44WellFormedSlots := by
  unfold Obligations.OpcodeTableHas44WellFormedSlots
  refine ⟨by decide, by decide, ?count, ?build, ?record⟩
  case count => intro k; cases k <;> rfl
  case build =>
    intro r hr lo hi
    obtain ⟨hkind, hmode, -⟩ := row_build hr lo hi
    exact ⟨hkind, hmode⟩
  case record =>
    intro op c hc
    obtain ⟨r, hrow, rfl⟩ := lookup_eq_some.mp hc
    exact row_code_wellFormed (Machine.findRow_mem hrow).1

/-- Settles O4: each word's opcode byte selects its row, or none. -/
theorem handWrittenWordsDecode : Obligations.HandWrittenWordsDecode := by
  unfold Obligations.HandWrittenWordsDecode
  exact ⟨rfl, rfl, rfl, rfl, rfl, rfl, rfl, rfl, rfl, rfl, rfl, rfl⟩

end Sys2Proof.Laws

/-! PROOFS. What every step keeps: the canonical form of memory, and what no instruction writes (10_state.md,
20_memory.md and 60_exceptions.md). -/

namespace Sys2Proof.Machine

open Sys2Proof.Claims

/-! Memory over an instruction and over a step. -/

/-- The devices an instruction leaves, if it goes on: the ones it met, or those after one Bus write. -/
theorem exec_next_devices {i : Instr} {s t : State} (h : exec i s = .next t) :
    t.devices = s.devices ∨ ∃ w v, busWrite s.devices w v = some t.devices := by
  obtain ⟨-, hregs⟩ | ⟨-, hstored⟩ := exec_next_cases h
  · exact .inl hregs.devices
  · obtain ⟨w, -, v, ds, p, pc, -, hds, rfl⟩ := hstored.devices
    exact .inr ⟨w, v, hds⟩

/-- The devices a step leaves, if it goes on: the ones it met, or those after one Bus write. -/
theorem step_next_devices {s t : State} (h : step s = .next t) :
    t.devices = s.devices ∨ ∃ w v, busWrite s.devices w v = some t.devices := by
  obtain ⟨-, i, -, hexec⟩ := step_next_cases h
  exact exec_next_devices hexec

/-- A step that goes on moves no device's range (20_memory.md R41). -/
theorem step_next_layout {s t : State} (h : step s = .next t) : t.layout = s.layout := by
  obtain hsame | ⟨w, v, hwrite⟩ := step_next_devices h
  · exact congrArg (List.map Device.addressSpace) hsame
  · exact busWrite_layout hwrite

/-! The flags over a step. -/

/-- A step that goes on keeps every flag but those some mnemonic names as written. -/
theorem step_next_flagsKept {s t : State} (h : step s = .next t) : ∃ k, FlagsKept s t (flagsWritten k) := by
  obtain ⟨-, i, -, hexec⟩ := step_next_cases h
  exact ⟨i.kind, exec_next_flagsKept hexec⟩

/-- No mnemonic names B as written (10_state.md R27). -/
theorem b_not_mem_flagsWritten (k : Mnemonic) : Flag.b ∉ flagsWritten k := by
  cases k <;> decide

/-- CLI alone names I as written (10_state.md R27). -/
theorem eq_cli_of_i_mem_flagsWritten {k : Mnemonic} (h : Flag.i ∈ flagsWritten k) : k = .cli := by
  revert h
  cases k <;> decide

/-- CLD alone names D as written (10_state.md R27). -/
theorem eq_cld_of_d_mem_flagsWritten {k : Mnemonic} (h : Flag.d ∈ flagsWritten k) : k = .cld := by
  revert h
  cases k <;> decide

/-- I is set after an instruction only where it was set before: CLI clears it and the others keep it. -/
theorem flagOf_i_of_statusAfter {k : Mnemonic} {p a m : Byte} (h : flagOf (statusAfter k p a m) .i = true) :
    flagOf p .i = true := by
  by_cases hk : Flag.i ∈ flagsWritten k
  · obtain rfl := eq_cli_of_i_mem_flagsWritten hk
    rw [statusAfter, flagOf_withFlag_self] at h
    cases h
  · rwa [flagOf_statusAfter hk] at h

/-- D is set after an instruction only where it was set before: CLD clears it and the others keep it. -/
theorem flagOf_d_of_statusAfter {k : Mnemonic} {p a m : Byte} (h : flagOf (statusAfter k p a m) .d = true) :
    flagOf p .d = true := by
  by_cases hk : Flag.d ∈ flagsWritten k
  · obtain rfl := eq_cld_of_d_mem_flagsWritten hk
    rw [statusAfter, flagOf_withFlag_self] at h
    cases h
  · rwa [flagOf_statusAfter hk] at h

/-! The statements. -/

/-- Settles O34: a step changes the devices by one Bus write at most, and that keeps every device well formed. -/
theorem stepKeepsMemoryCanonical : Obligations.StepKeepsMemoryCanonical := by
  unfold Obligations.StepKeepsMemoryCanonical
  intro s t hwf h
  obtain hsame | ⟨w, v, hwrite⟩ := step_next_devices h
  · rwa [State.wf, hsame]
  · exact busWrite_wf hwrite hwf

/-- Settles O35: the default device lists no cell. -/
theorem resetMemoryIsCanonical : Obligations.ResetMemoryIsCanonical := by
  unfold Obligations.ResetMemoryIsCanonical
  rfl

/-- Settles O36: a step's frame holds the registers, the report log and the status, which was Running; B and bit 7 are
in no mnemonic's list of written flags. -/
theorem stepKeepsWhatNoInstructionWrites : Obligations.StepKeepsWhatNoInstructionWrites := by
  unfold Obligations.StepKeepsWhatNoInstructionWrites
  intro s t h
  obtain ⟨hrunning, -⟩ := step_next_cases h
  obtain ⟨k, hflags, hbit7⟩ := step_next_flagsKept h
  have hb : t.flag .b = s.flag .b := hflags .b (b_not_mem_flagsWritten k)
  have hlayout : t.layout = s.layout := step_next_layout h
  obtain ⟨a, p, pc, ds, rfl⟩ := step_next_frame h
  exact ⟨rfl, rfl, rfl, rfl, hb, hbit7, hlayout, hrunning⟩

/-- Settles O37: the status byte a step leaves is its mnemonic's, and no mnemonic's sets I or D. -/
theorem stepNeverSetsInterruptOrDecimal : Obligations.StepNeverSetsInterruptOrDecimal := by
  unfold Obligations.StepNeverSetsInterruptOrDecimal
  intro s t h
  obtain ⟨-, i, -, hexec⟩ := step_next_cases h
  obtain ⟨m, hp⟩ := exec_next_status hexec
  simp only [State.flag, hp]
  exact ⟨flagOf_i_of_statusAfter, flagOf_d_of_statusAfter⟩

end Sys2Proof.Machine

/-! PROOFS. The statement about the flags that nothing reads, of 10_state.md: two states that differ in I, D, B and
bit 7 of p alone take steps that differ in those bits alone. -/

namespace Sys2Proof.Machine

open Sys2Proof.Claims

/-! Status bytes that agree in C, Z, V and N, the bits that are read (10_state.md R25). -/

/-- Two status bytes that agree in C, Z, V and N. -/
def AgreeInReadBits (p q : Byte) : Prop :=
  q &&& 0x63 = p &&& 0x63

/-- A status byte keeps its read bits when the others are replaced. -/
theorem agreeInReadBits_replace (p q : Byte) : AgreeInReadBits p ((p &&& 0x63) ||| (q &&& 0x9C)) := by
  rw [AgreeInReadBits, BitVec.and_or_distrib_right, BitVec.and_assoc, BitVec.and_assoc]
  simp

/-- Status bytes that agree in the read bits have the same read flags. -/
theorem AgreeInReadBits.flagOf_eq {p q : Byte} (h : AgreeInReadBits p q) {f : Flag} (hf : f ∈ [.c, .z, .v, .n]) :
    flagOf q f = flagOf p f := by
  have hread : (0x63 : Byte).getLsbD f.bit = true := by revert f; decide
  have hbit := congrArg (BitVec.getLsbD · f.bit) h
  simpa only [flagOf, BitVec.getLsbD_and, hread, Bool.and_true] using hbit

/-- Writing a flag keeps the agreement. -/
theorem AgreeInReadBits.withFlag {p q : Byte} (h : AgreeInReadBits p q) (f : Flag) (v : Bool) :
    AgreeInReadBits (withFlag p f v) (withFlag q f v) := by
  cases v with
  | true =>
    show (q ||| f.mask) &&& 0x63 = (p ||| f.mask) &&& 0x63
    rw [BitVec.and_or_distrib_right, BitVec.and_or_distrib_right, h]
  | false =>
    show (q &&& ~~~f.mask) &&& 0x63 = (p &&& ~~~f.mask) &&& 0x63
    have hswap : ∀ r : Byte, (r &&& ~~~f.mask) &&& 0x63 = (r &&& 0x63) &&& ~~~f.mask := fun r => by ac_rfl
    rw [hswap, hswap, h]

/-- An instruction of any mnemonic keeps the agreement: of the status byte it reads C at most, and it writes the same
flags with the same values (10_state.md R26, R27). -/
theorem AgreeInReadBits.statusAfter {p q : Byte} (h : AgreeInReadBits p q) (k : Mnemonic) (a m : Byte) :
    AgreeInReadBits (statusAfter k p a m) (statusAfter k q a m) := by
  have hzn : ∀ {p q : Byte} (r : Byte), AgreeInReadBits p q → AgreeInReadBits (withZN p r) (withZN q r) :=
    fun _ h => (h.withFlag .z _).withFlag .n _
  cases k with
  | adc =>
    have hc : flagOf q .c = flagOf p .c := h.flagOf_eq (by decide)
    show AgreeInReadBits (adcStatus p a m) (adcStatus q a m)
    rw [adcStatus, adcStatus, hc]
    exact hzn _ ((h.withFlag .c _).withFlag .v _)
  | and => exact hzn _ h
  | asl | cmp => exact hzn _ (h.withFlag .c _)
  | bit => exact ((h.withFlag .z _).withFlag .n _).withFlag .v _
  | clc => exact h.withFlag .c false
  | cld => exact h.withFlag .d false
  | cli => exact h.withFlag .i false
  | clv => exact h.withFlag .v false
  | bcc | bcs | beq | bmi | bne | bpl | bvc | bvs | brk => exact h

/-! A state with its status byte replaced by one that agrees in the read bits. -/

/-- The fetch does not read the status byte. -/
theorem fetchInstr_setP (s : State) (q : Byte) : fetchInstr (s.setP q) = fetchInstr s := rfl

/-- A Bus write neither reads nor writes the status byte. -/
theorem State.memWrite_setP (s : State) (q : Byte) (w : Addr) (b : Byte) :
    (s.setP q).memWrite w b = (s.memWrite w b).setP q := by
  cases h : busWrite s.devices w b with
  | some ds => rw [State.memWrite_of_some h, State.memWrite_of_some (s := s.setP q) h]; rfl
  | none => rw [State.memWrite_of_none h, State.memWrite_of_none (s := s.setP q) h]; rfl

/-- ASL's handler reads of the status byte only what it keeps. -/
theorem aslHandler_setP (o : Operand) (len : Nat) (s : State) (q : Byte) :
    aslHandler o len (s.setP q) = (aslHandler o len s).setP (aslStatus q o.value) := by
  obtain ⟨_ | ea, b, n⟩ := o
  · rfl
  · rw [aslHandler_mem_eq, aslHandler_mem_eq, State.memWrite_setP]
    rfl

/-- ADC's handler reads of the status byte C and what it keeps. -/
theorem adcHandler_setP (o : Operand) (len : Nat) {s : State} {q : Byte} (hc : flagOf q .c = flagOf s.p .c) :
    adcHandler o len (s.setP q) = (adcHandler o len s).setP (adcStatus q s.a o.value) := by
  rw [adcHandler_eq, adcHandler_eq, State.setP_p, hc]
  rfl

/-- A branch on the same condition keeps the status byte it meets. -/
theorem State.branch_setP (s : State) (c : Bool) (off q : Byte) :
    (s.setP q).branch c off = (s.branch c off).setP q := by
  cases c <;> rfl

/-! Outcomes that agree but for the unread bits. -/

/-- Next states agree where one is the other with a status byte that agrees in the read bits. -/
theorem agree_next {t t' : State} {q : Byte} (ht : t' = t.setP q) (h : AgreeInReadBits t.p q) :
    AgreeButUnreadBits (.next t) (.next t') := by
  subst ht
  exact ⟨h, rfl⟩

/-- Instructions that resolve the same operand agree where their handlers agree on every operand. -/
theorem agree_withOperand {k k' : Operand → State} (hk : ∀ o, AgreeButUnreadBits (.next (k o)) (.next (k' o)))
    (r : Except Fault Operand) : AgreeButUnreadBits (withOperand r k) (withOperand r k') := by
  cases r with
  | ok o => exact hk o
  | error f => rfl

/-- ADC agrees on every operand: it reads C alone. -/
theorem agree_adcHandler {s : State} {q : Byte} (h : AgreeInReadBits s.p q) (len : Nat) (o : Operand) :
    AgreeButUnreadBits (.next (adcHandler o len s)) (.next (adcHandler o len (s.setP q))) :=
  agree_next (adcHandler_setP o len (h.flagOf_eq (by decide))) (h.statusAfter .adc s.a o.value)

/-- AND agrees on every operand: it reads no flag. -/
theorem agree_andHandler {s : State} {q : Byte} (h : AgreeInReadBits s.p q) (len : Nat) (o : Operand) :
    AgreeButUnreadBits (.next (andHandler o len s)) (.next (andHandler o len (s.setP q))) :=
  agree_next rfl (h.statusAfter .and s.a o.value)

/-- CMP agrees on every operand: it reads no flag. -/
theorem agree_cmpHandler {s : State} {q : Byte} (h : AgreeInReadBits s.p q) (len : Nat) (o : Operand) :
    AgreeButUnreadBits (.next (cmpHandler o len s)) (.next (cmpHandler o len (s.setP q))) :=
  agree_next rfl (h.statusAfter .cmp s.a o.value)

/-- BIT agrees on every operand: it reads no flag. -/
theorem agree_bitHandler {s : State} {q : Byte} (h : AgreeInReadBits s.p q) (len : Nat) (o : Operand) :
    AgreeButUnreadBits (.next (bitHandler o len s)) (.next (bitHandler o len (s.setP q))) :=
  agree_next rfl (h.statusAfter .bit s.a o.value)

/-- ASL agrees on every operand: it reads no flag. -/
theorem agree_aslHandler {s : State} {q : Byte} (h : AgreeInReadBits s.p q) (len : Nat) (o : Operand) :
    AgreeButUnreadBits (.next (aslHandler o len s)) (.next (aslHandler o len (s.setP q))) :=
  agree_next (aslHandler_setP o len s q) (h.statusAfter .asl s.a o.value)

/-- Branches agree where they test the same condition. -/
theorem agree_branch {s : State} {q : Byte} (h : AgreeInReadBits s.p q) {c c' : Bool} (hc : c' = c) (off : Byte) :
    AgreeButUnreadBits (.next (s.branch c off)) (.next ((s.setP q).branch c' off)) := by
  subst hc
  exact agree_next (State.branch_setP s c' off q) (by rwa [State.branch_p])

/-- Every instruction agrees on a state and the state with its unread bits replaced. -/
theorem agree_exec (i : Instr) {s : State} {q : Byte} (h : AgreeInReadBits s.p q) :
    AgreeButUnreadBits (exec i s) (exec i (s.setP q)) := by
  have hc : (s.setP q).flag .c = s.flag .c := h.flagOf_eq (by decide)
  have hz : (s.setP q).flag .z = s.flag .z := h.flagOf_eq (by decide)
  have hv : (s.setP q).flag .v = s.flag .v := h.flagOf_eq (by decide)
  have hn : (s.setP q).flag .n = s.flag .n := h.flagOf_eq (by decide)
  cases i with
  | adcImm _ => exact agree_adcHandler h _ _
  | adcZp _ | adcZpX _ | adcAbs _ | adcAbsX _ | adcAbsY _ => exact agree_withOperand (agree_adcHandler h _) _
  | andImm _ => exact agree_andHandler h _ _
  | andZp _ | andZpX _ | andAbs _ | andAbsX _ | andAbsY _ => exact agree_withOperand (agree_andHandler h _) _
  | cmpImm _ => exact agree_cmpHandler h _ _
  | cmpZp _ | cmpZpX _ | cmpAbs _ | cmpAbsX _ | cmpAbsY _ => exact agree_withOperand (agree_cmpHandler h _) _
  | aslAcc => exact agree_aslHandler h _ _
  | aslZp _ | aslZpX _ | aslAbs _ | aslAbsX _ => exact agree_withOperand (agree_aslHandler h _) _
  | bitZp _ | bitAbs _ => exact agree_withOperand (agree_bitHandler h _) _
  | adcIndX _ | adcIndY _ | andIndX _ | andIndY _ | cmpIndX _ | cmpIndY _ | brk => rfl
  | bcc _ => exact agree_branch h (congrArg not hc) _
  | bcs _ => exact agree_branch h hc _
  | beq _ => exact agree_branch h hz _
  | bmi _ => exact agree_branch h hn _
  | bne _ => exact agree_branch h (congrArg not hz) _
  | bpl _ => exact agree_branch h (congrArg not hn) _
  | bvc _ => exact agree_branch h (congrArg not hv) _
  | bvs _ => exact agree_branch h hv _
  | clc => exact agree_next rfl (h.withFlag .c false)
  | cld => exact agree_next rfl (h.withFlag .d false)
  | cli => exact agree_next rfl (h.withFlag .i false)
  | clv => exact agree_next rfl (h.withFlag .v false)

/-- A step agrees on a state and the state with its unread bits replaced. -/
theorem agree_step {s : State} {q : Byte} (h : AgreeInReadBits s.p q) :
    AgreeButUnreadBits (step s) (step (s.setP q)) := by
  cases hs : s.status with
  | halted f => rw [step_halted hs, step_halted (s := s.setP q) hs]; rfl
  | running =>
    rw [step_running hs, step_running (s := s.setP q) hs, fetchInstr_setP]
    cases fetchInstr s with
    | error f => rfl
    | ok i => exact agree_exec i h

/-! The statement. -/

/-- Settles O39: the replaced status byte agrees with the old one in the read bits, and a step keeps that agreement. -/
theorem interruptDecimalBreakAndBit7AreNeverRead : Obligations.InterruptDecimalBreakAndBit7AreNeverRead := by
  unfold Obligations.InterruptDecimalBreakAndBit7AreNeverRead
  intro s q
  exact agree_step (agreeInReadBits_replace s.p q)

end Sys2Proof.Machine

/-! PROOFS. The statements about the resolver of 40_pipeline_and_addressing.md: where operand bytes and operands are
read, and with what fault. -/

namespace Sys2Proof.Machine

open Sys2Proof.Claims

/-! The operand bytes of each mode (40_pipeline_and_addressing.md R96 to R99). -/

theorem fetchOperands_implied (s : State) : fetchOperands s .implied = .ok (0, 0) := rfl

/-- No operand byte of an Indirect form is read (40_pipeline_and_addressing.md R99). -/
theorem fetchOperands_indirect (s : State) (j : Index) : fetchOperands s (.indirect j) = .ok (unreadOperand s, 0) := rfl

theorem fetchOperands_zeroPage {s : State} {z : Byte} (j : Index) (h : s.byteAt (s.pc + 1) = some z) :
    fetchOperands s (.zeroPage j) = .ok (z, 0) := by
  rw [fetchOperands, pcPlus_one, State.memRead_of_some h]
  rfl

theorem fetchOperands_absolute {s : State} {lo hi : Byte} (j : Index) (hlo : s.byteAt (s.pc + 1) = some lo)
    (hhi : s.byteAt (s.pc + 2) = some hi) : fetchOperands s (.absolute j) = .ok (lo, hi) := by
  rw [fetchOperands, pcPlus_one, pcPlus_two, State.memRead_of_some hlo, State.memRead_of_some hhi]
  rfl

/-- The first operand byte's read faults first, in every mode that reads one (40_pipeline_and_addressing.md R104). -/
theorem fetchOperands_of_first_unmapped {s : State} {m : Mode} (h : s.byteAt (s.pc + 1) = none)
    (hm : m = .immediate ∨ m = .relative ∨ (∃ j, m = .zeroPage j) ∨ ∃ j, m = .absolute j) :
    fetchOperands s m = .error (.unmappedRead (s.pc + 1)) := by
  have hread : s.memRead (s.pcPlus 1) = .error (.unmappedRead (s.pc + 1)) := State.memRead_of_none h
  obtain rfl | rfl | ⟨j, rfl⟩ | ⟨j, rfl⟩ := hm <;> rw [fetchOperands, hread] <;> rfl

/-- The second operand byte's read faults after the first is read (40_pipeline_and_addressing.md R104). -/
theorem fetchOperands_of_second_unmapped {s : State} {lo : Byte} (j : Index) (hlo : s.byteAt (s.pc + 1) = some lo)
    (hhi : s.byteAt (s.pc + 2) = none) : fetchOperands s (.absolute j) = .error (.unmappedRead (s.pc + 2)) := by
  rw [fetchOperands, pcPlus_one, pcPlus_two, State.memRead_of_some hlo, State.memRead_of_none hhi]
  rfl

/-- A read that faults under a map is a read of an unmapped address. -/
theorem memRead_map_eq_error {α : Type} {s : State} {w : Addr} {g : Byte → α} {f : Fault}
    (h : (s.memRead w).map g = .error f) : s.byteAt w = none ∧ f = .unmappedRead w := by
  cases hr : s.memRead w with
  | ok b => rw [hr] at h; cases h
  | error f' =>
    rw [hr] at h
    cases h
    exact State.memRead_eq_error.mp hr

/-- The operand bytes' reads fault only by an unmapped address. -/
theorem fetchOperands_eq_error {s : State} {m : Mode} {f : Fault} (h : fetchOperands s m = .error f) :
    ∃ w, s.byteAt w = none ∧ f = .unmappedRead w := by
  cases m with
  | accumulator | implied | indirect _ => cases h
  | immediate | zeroPage _ | relative => exact ⟨_, memRead_map_eq_error h⟩
  | absolute j =>
    rw [fetchOperands] at h
    cases hlo : s.memRead (s.pcPlus 1) with
    | error f' =>
      rw [hlo] at h
      cases h
      exact ⟨_, State.memRead_eq_error.mp hlo⟩
    | ok lo =>
      rw [hlo] at h
      exact ⟨_, memRead_map_eq_error h⟩

/-! Where an instruction reads its operand. -/

/-- The effective address at which a mode reads its operand, of its operand bytes; none for a mode that reads none
(40_pipeline_and_addressing.md R97, R98). -/
def effectiveAddr (s : State) (lo hi : Byte) : Mode → Option Addr
  | .zeroPage j => some (eaZeroPage s j lo)
  | .absolute j => some (eaAbsolute s j (joinBytes lo hi))
  | .accumulator | .immediate | .indirect _ | .relative | .implied => none

/-- The effective address at which an instruction reads its operand, none for one that reads none. -/
def operandAddr (s : State) : Instr → Option Addr
  | .adcZp z | .andZp z | .cmpZp z | .aslZp z | .bitZp z => some (eaZeroPage s .none z)
  | .adcZpX z | .andZpX z | .cmpZpX z | .aslZpX z => some (eaZeroPage s .x z)
  | .adcAbs b | .andAbs b | .cmpAbs b | .aslAbs b | .bitAbs b => some (eaAbsolute s .none b)
  | .adcAbsX b | .andAbsX b | .cmpAbsX b | .aslAbsX b => some (eaAbsolute s .x b)
  | .adcAbsY b | .andAbsY b | .cmpAbsY b => some (eaAbsolute s .y b)
  | _ => none

/-- An instruction that reads its operand executes with the operand at its effective address. -/
theorem exec_of_operandAddr {i : Instr} {s : State} {ea : Addr} (h : operandAddr s i = some ea) :
    ∃ k, exec i s = withOperand (resolveAt s ea) k := by
  cases i with
  | adcZp _ | adcZpX _ | adcAbs _ | adcAbsX _ | adcAbsY _
  | andZp _ | andZpX _ | andAbs _ | andAbsX _ | andAbsY _
  | cmpZp _ | cmpZpX _ | cmpAbs _ | cmpAbsX _ | cmpAbsY _
  | aslZp _ | aslZpX _ | aslAbs _ | aslAbsX _
  | bitZp _ | bitAbs _ => cases h; exact ⟨_, rfl⟩
  | _ => cases h

/-- An instruction faults where no device maps its effective address (20_memory.md R52). -/
theorem exec_of_unmapped {i : Instr} {s : State} {ea : Addr} (h : operandAddr s i = some ea)
    (hea : s.byteAt ea = none) : exec i s = .fault (.unmappedRead ea) := by
  obtain ⟨k, hk⟩ := exec_of_operandAddr h
  rw [hk, withOperand_of_none k hea]

/-- A row's instruction reads its operand where the row's mode says. -/
theorem operandAddr_row_build {r : Row} (hr : r ∈ opTable) (s : State) (lo hi : Byte) :
    operandAddr s (r.build lo hi) = effectiveAddr s lo hi r.mode := by
  revert r
  rw [← List.forall_iff_forall_mem]
  simp only [opTable, rowsLow, rowsMid, rowsHigh, rowsTop, List.cons_append, List.nil_append, List.Forall,
    operandAddr, effectiveAddr, and_self]

/-- An instruction with an Indirect mode faults with its own opcode byte and mode (40_pipeline_and_addressing.md
R99). -/
theorem exec_of_indirect {i : Instr} {j : Index} {op : Byte} {operands : List Byte} (s : State)
    (hmode : i.mode = .indirect j) (hcode : encode i = op :: operands) :
    exec i s = .fault (.unsupportedAddressingMode s.pc op (.indirect j)) := by
  cases i with
  | adcIndX _ | adcIndY _ | andIndX _ | andIndY _ | cmpIndX _ | cmpIndY _ => cases hmode; cases hcode; rfl
  | _ => cases hmode

/-! The statements. -/

/-- Settles O26: the effective address by its arithmetic, each read by whether its address is mapped. -/
theorem zeroPageResolves : Obligations.ZeroPageResolves := by
  unfold Obligations.ZeroPageResolves
  intro s j z
  exact ⟨eaZeroPage_toNat s j z, fetchOperands_zeroPage j,
    fun h => fetchOperands_of_first_unmapped h (.inr (.inr (.inl ⟨j, rfl⟩))),
    fun v hv => resolveAt_of_some hv, fun h => resolveAt_of_none h⟩

/-- Settles O27: the effective address by its arithmetic on the joined bytes, each read at a mapped address. -/
theorem absoluteResolves : Obligations.AbsoluteResolves := by
  unfold Obligations.AbsoluteResolves
  intro s j lo hi
  refine ⟨?_, fetchOperands_absolute j, fun v hv => resolveAt_of_some hv⟩
  rw [eaAbsolute_toNat, Laws.joinBytes_toNat]

/-- Settles O21: each Indirect form faults with the opcode it encodes to, and BRK's meaning is its fault. -/
theorem brkAndIndirectFormsStop : Obligations.BrkAndIndirectFormsStop := by
  unfold Obligations.BrkAndIndirectFormsStop
  intro s z
  exact ⟨rfl, exec_of_indirect s rfl rfl, exec_of_indirect s rfl rfl, exec_of_indirect s rfl rfl,
    exec_of_indirect s rfl rfl, exec_of_indirect s rfl rfl, exec_of_indirect s rfl rfl⟩

/-- Settles O22: every listed form reads its operand at the effective address named. -/
theorem unmappedOperandTraps : Obligations.UnmappedOperandTraps := by
  unfold Obligations.UnmappedOperandTraps
  intro s
  have traps : ∀ {ea : Addr} {l : List Instr}, l.Forall (fun i => operandAddr s i = some ea) → s.byteAt ea = none →
      ∀ i ∈ l, exec i s = .fault (.unmappedRead ea) :=
    fun hl hea i hi => exec_of_unmapped (List.forall_iff_forall_mem.mp hl i hi) hea
  exact ⟨fun z => traps ⟨rfl, rfl, rfl, rfl, rfl⟩, fun z => traps ⟨rfl, rfl, rfl, rfl⟩,
    fun b => traps ⟨rfl, rfl, rfl, rfl, rfl⟩, fun b => traps ⟨rfl, rfl, rfl, rfl⟩, fun b => traps ⟨rfl, rfl, rfl⟩⟩

end Sys2Proof.Machine

/-! PROOFS. The statements about a tick and its faults, of 40_pipeline_and_addressing.md section 1 and
60_exceptions.md. -/

namespace Sys2Proof.Machine

open Sys2Proof.Claims

/-! The fetch, by what stands at pc (40_pipeline_and_addressing.md R91, R92). -/

theorem fetchInstr_of_unmapped {s : State} (h : s.byteAt s.pc = none) :
    fetchInstr s = .error (.unmappedRead s.pc) := by
  rw [fetchInstr, State.memRead_of_none h]

theorem fetchInstr_of_emptySlot {s : State} {op : Byte} (hop : s.byteAt s.pc = some op) (hrow : findRow op = none) :
    fetchInstr s = .error (.unknownOpcode s.pc op) := by
  simp only [fetchInstr, State.memRead_of_some hop, hrow]

theorem fetchInstr_of_row {s : State} {op : Byte} {r : Row} (hop : s.byteAt s.pc = some op)
    (hrow : findRow op = some r) :
    fetchInstr s = (fetchOperands s r.mode).map (fun b => r.build b.1 b.2) := by
  simp only [fetchInstr, State.memRead_of_some hop, hrow]

/-- The fetch answers an instruction only where a row's opcode byte stands at pc, and it is one that row builds. -/
theorem fetchInstr_eq_ok {s : State} {i : Instr} (h : fetchInstr s = .ok i) :
    ∃ op r lo hi, s.byteAt s.pc = some op ∧ findRow op = some r ∧ i = r.build lo hi := by
  cases hop : s.byteAt s.pc with
  | none => rw [fetchInstr_of_unmapped hop] at h; cases h
  | some op =>
    cases hrow : findRow op with
    | none => rw [fetchInstr_of_emptySlot hop hrow] at h; cases h
    | some r =>
      rw [fetchInstr_of_row hop hrow] at h
      cases hb : fetchOperands s r.mode with
      | error f => rw [hb] at h; cases h
      | ok b => rw [hb] at h; cases h; exact ⟨op, r, b.1, b.2, rfl, hrow, rfl⟩

/-- The fetch faults only by an unmapped address or by the empty slot of the byte at pc. -/
theorem fetchInstr_eq_error {s : State} {f : Fault} (h : fetchInstr s = .error f) :
    (∃ w, s.byteAt w = none ∧ f = .unmappedRead w) ∨
    ∃ op, s.byteAt s.pc = some op ∧ findRow op = none ∧ f = .unknownOpcode s.pc op := by
  cases hop : s.byteAt s.pc with
  | none => rw [fetchInstr_of_unmapped hop] at h; cases h; exact .inl ⟨s.pc, hop, rfl⟩
  | some op =>
    cases hrow : findRow op with
    | none => rw [fetchInstr_of_emptySlot hop hrow] at h; cases h; exact .inr ⟨op, rfl, hrow, rfl⟩
    | some r =>
      rw [fetchInstr_of_row hop hrow] at h
      cases hb : fetchOperands s r.mode with
      | ok b => rw [hb] at h; cases h
      | error f' => rw [hb] at h; cases h; exact .inl (fetchOperands_eq_error hb)

/-! The faults of an instruction. -/

/-- Every fault of executing an instruction: its operand's address is unmapped, or its mode is Indirect with X or Y, or
it is BRK (60_exceptions.md R182 to R184). -/
theorem exec_fault_cases {i : Instr} {s : State} {f : Fault} (h : exec i s = .fault f) :
    (∃ w, s.byteAt w = none ∧ f = .unmappedRead w) ∨
    (∃ j op operands, (j = .x ∨ j = .y) ∧ i.mode = .indirect j ∧ encode i = op :: operands ∧
      f = .unsupportedAddressingMode s.pc op (.indirect j)) ∨
    (i = .brk ∧ f = .unsupportedInstruction s.pc 0x00) := by
  cases i with
  | adcZp _ | adcZpX _ | adcAbs _ | adcAbsX _ | adcAbsY _
  | andZp _ | andZpX _ | andAbs _ | andAbsX _ | andAbsY _
  | cmpZp _ | cmpZpX _ | cmpAbs _ | cmpAbsX _ | cmpAbsY _
  | aslZp _ | aslZpX _ | aslAbs _ | aslAbsX _
  | bitZp _ | bitAbs _ => exact .inl ⟨_, resolveAt_eq_error.mp (withOperand_eq_fault.mp h)⟩
  | adcIndX _ | andIndX _ | cmpIndX _ => cases h; exact .inr (.inl ⟨.x, _, _, .inl rfl, rfl, rfl, rfl⟩)
  | adcIndY _ | andIndY _ | cmpIndY _ => cases h; exact .inr (.inl ⟨.y, _, _, .inr rfl, rfl, rfl, rfl⟩)
  | brk => cases h; exact .inr (.inr ⟨rfl, rfl⟩)
  | _ => cases h

/-- The one instruction of mnemonic BRK. -/
theorem eq_brk_of_kind {i : Instr} (h : i.kind = .brk) : i = .brk := by
  cases i with
  | brk => rfl
  | _ => cases h

/-! The step of a running machine. -/

theorem step_of_fetch_error {s : State} {f : Fault} (hs : s.status = .running) (h : fetchInstr s = .error f) :
    step s = .fault f := by
  rw [step_running hs, h]

theorem step_of_fetch_ok {s : State} {i : Instr} (hs : s.status = .running) (h : fetchInstr s = .ok i) :
    step s = exec i s := by
  rw [step_running hs, h]

/-- Every fault of a running machine's step: the fetch's, or that of the instruction fetched. -/
theorem step_fault_cases {s : State} {f : Fault} (hs : s.status = .running) (h : step s = .fault f) :
    fetchInstr s = .error f ∨ ∃ i, fetchInstr s = .ok i ∧ exec i s = .fault f := by
  cases hf : fetchInstr s with
  | error f' => rw [step_of_fetch_error hs hf] at h; cases h; exact .inl rfl
  | ok i => rw [step_of_fetch_ok hs hf] at h; exact .inr ⟨i, rfl, h⟩

section Row

variable {s : State} {op : Byte} {r : Row}

/-- Where the operand bytes of a row are read, the step executes the row's instruction of them. -/
theorem step_of_row (hs : s.status = .running) (hop : s.byteAt s.pc = some op) (hrow : findRow op = some r)
    {lo hi : Byte} (hb : fetchOperands s r.mode = .ok (lo, hi)) : step s = exec (r.build lo hi) s := by
  apply step_of_fetch_ok hs
  rw [fetchInstr_of_row hop hrow, hb]
  rfl

/-- Where a read of an operand byte faults, so does the step. -/
theorem step_of_operand_fault (hs : s.status = .running) (hop : s.byteAt s.pc = some op) (hrow : findRow op = some r)
    {f : Fault} (hb : fetchOperands s r.mode = .error f) : step s = .fault f := by
  apply step_of_fetch_error hs
  rw [fetchInstr_of_row hop hrow, hb]
  rfl

/-- Where the row's mode reads its operand at an unmapped address, the step faults (20_memory.md R52). -/
theorem step_of_unmapped_operand (hs : s.status = .running) (hop : s.byteAt s.pc = some op)
    (hrow : findRow op = some r) {lo hi : Byte} (hb : fetchOperands s r.mode = .ok (lo, hi)) {ea : Addr}
    (hmode : effectiveAddr s lo hi r.mode = some ea) (hea : s.byteAt ea = none) :
    step s = .fault (.unmappedRead ea) := by
  rw [step_of_row hs hop hrow hb]
  exact exec_of_unmapped ((operandAddr_row_build (findRow_mem hrow).1 s lo hi).trans hmode) hea

/-- A row with an Indirect mode faults, whatever stands after the opcode (40_pipeline_and_addressing.md R99). -/
theorem step_of_indirect (hs : s.status = .running) (hop : s.byteAt s.pc = some op) (hrow : findRow op = some r)
    {j : Index} (hmode : r.mode = .indirect j) :
    step s = .fault (.unsupportedAddressingMode s.pc op (.indirect j)) := by
  obtain ⟨hmem, rfl⟩ := findRow_mem hrow
  rw [step_of_row hs hop hrow (hmode ▸ fetchOperands_indirect s j)]
  obtain ⟨-, hbuilt, hcode⟩ := Laws.row_build hmem (unreadOperand s) 0
  exact exec_of_indirect s (hbuilt.trans hmode) hcode

/-- BRK's row faults (45_bit_cmp_brk.md R172). -/
theorem step_of_brk (hs : s.status = .running) (hop : s.byteAt s.pc = some op) (hrow : findRow op = some r)
    (hkind : r.kind = .brk) : step s = .fault (.unsupportedInstruction s.pc 0x00) := by
  obtain ⟨hbuilt, hmode, -⟩ := Laws.row_build (findRow_mem hrow).1 0 0
  have hbrk : r.build 0 0 = .brk := eq_brk_of_kind (hbuilt.trans hkind)
  have himplied : r.mode = .implied := by rw [← hmode, hbrk]; rfl
  rw [step_of_row hs hop hrow (himplied ▸ fetchOperands_implied s), hbrk]
  rfl

end Row

/-! Ticks (60_exceptions.md R186, R198). -/

theorem tickState_of_next {s t : State} (h : step s = .next t) : tickState s = t := by
  rw [tickState, show tickOutcome s = .next t from h]

theorem tickState_of_fault {s : State} {f : Fault} (h : step s = .fault f) : tickState s = s.halt f := by
  rw [tickState, show tickOutcome s = .fault f from h]

/-- A tick leaves a halted machine as it is. -/
theorem tickState_of_halted {s : State} {f : Fault} (h : s.status = .halted f) : tickState s = s := by
  rw [tickState_of_fault (step_halted h), State.halt, ← h]

/-- Any number of ticks leave a halted machine as it is. -/
theorem ticks_of_halted {s : State} {f : Fault} (h : s.status = .halted f) (n : Nat) : ticks n s = s := by
  induction n with
  | zero => rfl
  | succ n ih => rw [ticks, tickState_of_halted h, ih]

/-! Loading an instruction (70_reset_and_hazards.md R212). -/

/-- The byte addresses after an address, counted from the next one. -/
theorem add_one_add_ofNat (w : Addr) (k : Nat) : w + 1 + BitVec.ofNat 16 k = w + BitVec.ofNat 16 (k + 1) := by
  rw [Nat.add_comm k 1, BitVec.ofNat_add, ← BitVec.add_assoc]
  rfl

/-- Fewer than 65536 bytes on from an address is another address. -/
theorem add_ofNat_ne (w : Addr) {k : Nat} (hpos : 0 < k) (hlt : k < 65536) : w + BitVec.ofNat 16 k ≠ w := by
  intro heq
  have hnat := congrArg BitVec.toNat heq
  simp only [BitVec.toNat_add, BitVec.toNat_ofNat] at hnat
  omega

/-- Loading bytes leaves an address none of them is written to as it was. -/
theorem byteAt_loadImage_ne {s : State} {addr u : Addr} {bytes : List Byte}
    (h : ∀ k < bytes.length, u ≠ addr + BitVec.ofNat 16 k) :
    (s.loadImage addr bytes).byteAt u = s.byteAt u := by
  induction bytes generalizing s addr with
  | nil => rfl
  | cons b rest ih =>
    have hhead : u ≠ addr := by simpa using h 0 (by simp)
    have htail : ∀ k < rest.length, u ≠ addr + 1 + BitVec.ofNat 16 k := by
      intro k hk
      rw [add_one_add_ofNat]
      exact h (k + 1) (by simpa using hk)
    rw [State.loadImage, ih htail]
    exact State.byteAt_memWrite_ne b hhead

/-- The bytes a host loads at mapped addresses stand there after, where memory is in canonical form and they do not go
round the address space. -/
theorem holdsAt_loadImage {s : State} {addr : Addr} {bytes : List Byte} (hwf : s.wf = true)
    (hlen : bytes.length ≤ 65536)
    (hmapped : ∀ k < bytes.length, (s.byteAt (addr + BitVec.ofNat 16 k)).isSome = true) :
    (s.loadImage addr bytes).holdsAt addr bytes := by
  induction bytes generalizing s addr with
  | nil => trivial
  | cons b rest ih =>
    rw [List.length_cons] at hlen hmapped
    have hne : ∀ k < rest.length, addr + 1 + BitVec.ofNat 16 k ≠ addr := fun k hk =>
      add_one_add_ofNat addr k ▸ add_ofNat_ne addr (by omega) (by omega)
    have hhead : (s.byteAt addr).isSome = true := by simpa using hmapped 0 (by omega)
    constructor
    · rw [State.loadImage, byteAt_loadImage_ne (fun k hk => (hne k hk).symm)]
      exact State.byteAt_memWrite_self b hwf hhead
    · apply ih (State.wf_memWrite addr b hwf) (by omega)
      intro k hk
      rw [State.byteAt_memWrite_ne b (hne k hk), add_one_add_ofNat]
      exact hmapped (k + 1) (by omega)

@[simp] theorem State.loadImage_status (s : State) (addr : Addr) (bytes : List Byte) :
    (s.loadImage addr bytes).status = s.status := by
  induction bytes generalizing s addr with
  | nil => rfl
  | cons b rest ih => rw [State.loadImage, ih, State.hostWrite, State.memWrite_status]

@[simp] theorem State.loadImage_pc (s : State) (addr : Addr) (bytes : List Byte) :
    (s.loadImage addr bytes).pc = s.pc := by
  induction bytes generalizing s addr with
  | nil => rfl
  | cons b rest ih => rw [State.loadImage, ih, State.hostWrite, State.memWrite_pc]

/-! The statements. -/

/-- Settles O5: the fetch answers what the bytes at pc decode to, and a running machine executes it. -/
theorem stepRunsDecodedInstruction : Obligations.StepRunsDecodedInstruction := by
  unfold Obligations.StepRunsDecodedInstruction
  intro s bytes rest i hs hbytes hdecode
  exact step_of_fetch_ok hs (fetchInstr_of_decode hbytes hdecode)

/-- Settles O6: the loaded encoding stands at pc and decodes to the instruction. -/
theorem loadedInstructionRuns : Obligations.LoadedInstructionRuns := by
  unfold Obligations.LoadedInstructionRuns
  intro s i hs hwf hmapped
  have hloaded : (s.loadImage s.pc (encode i)).holdsAt s.pc (encode i) :=
    holdsAt_loadImage hwf ((Laws.encode_length_le i).trans (by omega)) hmapped
  have hdecode : decode (encode i) = .ok (i, []) := by
    have := Laws.RoundTrip.statement i (Laws.instr_wellFormed i) []
    rwa [List.append_nil] at this
  apply step_of_fetch_ok (by rw [State.loadImage_status, hs])
  exact fetchInstr_of_decode (by rwa [State.loadImage_pc]) hdecode

/-- Settles O7: stage by stage, the row of the byte at pc fixes which reads are made and in what order. -/
theorem faultsComeInStageOrder : Obligations.FaultsComeInStageOrder := by
  unfold Obligations.FaultsComeInStageOrder
  intro s hs
  refine ⟨fun hpc => step_of_fetch_error hs (fetchInstr_of_unmapped hpc), fun op hop => ⟨fun hempty => ?_, ?_⟩⟩
  · exact step_of_fetch_error hs (fetchInstr_of_emptySlot hop (Laws.lookup_eq_none.mp hempty))
  · intro c hc
    obtain ⟨r, hrow, rfl⟩ := Laws.lookup_eq_some.mp hc
    refine ⟨fun j hm => step_of_indirect hs hop hrow hm, fun hm hfirst => ?firstByte,
      fun j lo (hm : r.mode = .absolute j) hlo hhi => ?secondByte,
      fun j z (hm : r.mode = .zeroPage j) hz hea => ?zeroPage,
      fun j lo hi (hm : r.mode = .absolute j) hlo hhi hea => ?absolute, step_of_brk hs hop hrow⟩
    case firstByte => exact step_of_operand_fault hs hop hrow (fetchOperands_of_first_unmapped hfirst hm)
    case secondByte => exact step_of_operand_fault hs hop hrow (hm ▸ fetchOperands_of_second_unmapped j hlo hhi)
    case zeroPage =>
      exact step_of_unmapped_operand hs hop hrow (hm ▸ fetchOperands_zeroPage j hz) (by rw [hm]; rfl) hea
    case absolute =>
      exact step_of_unmapped_operand hs hop hrow (hm ▸ fetchOperands_absolute j hlo hhi) (by rw [hm]; rfl) hea

/-- Settles O8: the fetch and the instruction it answers have few ways to fault, and each names its cause. -/
theorem faultNamesItsCause : Obligations.FaultNamesItsCause := by
  unfold Obligations.FaultNamesItsCause
  intro s f hs h
  obtain hfetch | ⟨i, hfetch, hexec⟩ := step_fault_cases hs h
  · obtain ⟨w, hw, rfl⟩ | ⟨op, hop, hrow, rfl⟩ := fetchInstr_eq_error hfetch
    · exact hw
    · exact ⟨rfl, hop, Laws.lookup_eq_none.mpr hrow⟩
  · obtain ⟨op, r, lo, hi, hop, hrow, rfl⟩ := fetchInstr_eq_ok hfetch
    obtain ⟨hmem, rfl⟩ := findRow_mem hrow
    obtain ⟨-, hmode, hcode⟩ := Laws.row_build hmem lo hi
    obtain ⟨w, hw, rfl⟩ | ⟨j, op, operands, hj, hind, hop', rfl⟩ | ⟨hbrk, rfl⟩ := exec_fault_cases hexec
    · exact hw
    · obtain ⟨rfl, -⟩ := List.cons.inj (hcode.symm.trans hop')
      exact ⟨rfl, hop, ⟨r.code, Laws.lookup_eq_some.mpr ⟨r, hrow, rfl⟩, hmode.symm.trans hind⟩,
        hj.imp (congrArg Mode.indirect) (congrArg Mode.indirect)⟩
    · rw [hbrk] at hcode
      obtain ⟨hzero, -⟩ := List.cons.inj hcode
      exact ⟨rfl, hzero ▸ hop, rfl⟩

/-- Settles O9: halting changes the status alone, and a step that goes on keeps the status it needs, Running. -/
theorem faultingTickOnlyHalts : Obligations.FaultingTickOnlyHalts := by
  unfold Obligations.FaultingTickOnlyHalts
  constructor
  · intro s f h
    rw [tickState_of_fault h]
    exact ⟨rfl, rfl, fun _ => rfl⟩
  · intro s t h
    obtain ⟨hrunning, -⟩ := step_next_cases h
    obtain ⟨a, p, pc, ds, rfl⟩ := step_next_frame h
    exact ⟨tickState_of_next h, hrunning⟩

/-- Settles O10: a halted machine is fixed by every tick, by induction on their number. -/
theorem haltedMachineRepeatsItsFault : Obligations.HaltedMachineRepeatsItsFault := by
  unfold Obligations.HaltedMachineRepeatsItsFault
  intro s f n h
  rw [ticks_of_halted h n]
  exact ⟨step_halted h, rfl⟩

/-- Settles O11: a halted machine and a failed fetch fault, and no instruction is refused. -/
theorem stepNeverRefuses : Obligations.StepNeverRefuses := by
  unfold Obligations.StepNeverRefuses
  intro s e
  cases hs : s.status with
  | halted f => rw [step_halted hs]; exact nofun
  | running =>
    cases hf : fetchInstr s with
    | error f => rw [step_of_fetch_error hs hf]; exact nofun
    | ok i => rw [step_of_fetch_ok hs hf]; exact exec_ne_refused i s e

/-- Settles O40: a newly built core is running with pc at 0x0000, so its first fetch is there. -/
theorem resetIsConstruction : Obligations.ResetIsConstruction := by
  unfold Obligations.ResetIsConstruction
  refine ⟨rfl, rfl, fun ds => ⟨rfl, rfl, rfl, rfl, fun hpc => ?_, fun op hop hempty => ?_⟩⟩
  · exact step_of_fetch_error rfl (fetchInstr_of_unmapped hpc)
  · exact step_of_fetch_error rfl (fetchInstr_of_emptySlot hop (Laws.lookup_eq_none.mp hempty))

end Sys2Proof.Machine

/-! PROOFS. The statements about ADC's overflow and about AND, CMP and BIT, of 41_adc_and.md and 45_bit_cmp_brk.md. -/

namespace Sys2Proof.Machine

open Sys2Proof.Claims

/-! ADC's overflow flag as a signed comparison (41_adc_and.md R122). -/

/-- Bit 7 of a byte as a comparison of its number. -/
theorem bit7_eq_decide (b : Byte) : b.getLsbD 7 = decide (128 ≤ b.toNat) :=
  BitVec.msb_eq_decide b

/-- The two's-complement value of a byte by its number. -/
theorem byte_toInt (b : Byte) : b.toInt = if 128 ≤ b.toNat then (b.toNat : Int) - 256 else b.toNat := by
  rw [BitVec.toInt_eq_toNat_cond]
  split <;> split <;> omega

/-- ADC overflows where bit 7 of the result differs from that of accumulator and of operand (41_adc_and.md R122). -/
theorem adcOverflow_iff (a m : Byte) (c : Bool) :
    adcOverflow a m c = true ↔
      ¬(128 ≤ a.toNat ↔ 128 ≤ (adcResult a m c).toNat) ∧ ¬(128 ≤ m.toNat ↔ 128 ≤ (adcResult a m c).toNat) := by
  rw [adcOverflow, BitVec.getLsbD_and, BitVec.getLsbD_xor, BitVec.getLsbD_xor, bit7_eq_decide, bit7_eq_decide,
    bit7_eq_decide, Bool.and_eq_true, Bool.xor_iff_ne, Bool.xor_iff_ne, ne_eq, ne_eq, decide_eq_decide,
    decide_eq_decide]

/-- Settles O13: the overflow test, the result and the signed values are each a comparison or a sum of the bytes'
numbers. -/
theorem adcOverflowIsSignedOverflow : Obligations.AdcOverflowIsSignedOverflow := by
  unfold Obligations.AdcOverflowIsSignedOverflow
  intro a m c
  have ha := a.isLt
  have hm := m.isLt
  have hc : c.toNat ≤ 1 := c.toNat_le
  rw [adcOverflow_iff, adcResult_toNat, byte_toInt, byte_toInt]
  omega

/-! What the executing forms share: one handler, on an immediate operand or one read from memory. -/

/-- The six executing forms have an effect where they share a handler that has it for every operand and length. -/
theorem everyReadForm_of_handler {imm zp zpX : Byte → Instr} {abs absX absY : Addr → Instr} {s : State}
    {handler : Operand → Nat → State → State} {effect : Byte → Nat → State → Prop}
    (heffect : ∀ o len, effect o.value len (handler o len s))
    (himm : ∀ m, exec (imm m) s = .next (handler (resolveImmediate s m) 2 s))
    (hzp : ∀ z, exec (zp z) s = withOperand (resolveAt s (eaZeroPage s .none z)) (handler · 2 s))
    (hzpX : ∀ z, exec (zpX z) s = withOperand (resolveAt s (eaZeroPage s .x z)) (handler · 2 s))
    (habs : ∀ b, exec (abs b) s = withOperand (resolveAt s (eaAbsolute s .none b)) (handler · 3 s))
    (habsX : ∀ b, exec (absX b) s = withOperand (resolveAt s (eaAbsolute s .x b)) (handler · 3 s))
    (habsY : ∀ b, exec (absY b) s = withOperand (resolveAt s (eaAbsolute s .y b)) (handler · 3 s)) :
    EveryReadForm imm zp zpX abs absX absY s effect := by
  have hmem : ∀ {i : Instr} {ea : Addr} {m : Byte} (len : Nat),
      exec i s = withOperand (resolveAt s ea) (handler · len s) → s.byteAt ea = some m →
        ∃ t, exec i s = .next t ∧ effect m len t :=
    fun len hi hm => hi ▸ withOperand_next_effect (effect := (effect · len)) (heffect · len) hm
  exact ⟨fun m => ⟨_, himm m, heffect (resolveImmediate s m) 2⟩, fun z _ => hmem 2 (hzp z), fun z _ => hmem 2 (hzpX z),
    fun b _ => hmem 3 (habs b), fun b _ => hmem 3 (habsX b), fun b _ => hmem 3 (habsY b)⟩

/-! AND (41_adc_and.md R125). -/

/-- The handler of AND has AND's effect, for every operand and length. -/
theorem andHandler_effect (o : Operand) (len : Nat) (s : State) :
    AndEffect s o.value len (andHandler o len s) := by
  have hflag := flagOf_withZN s.p (s.a &&& o.value)
  have hkept : FlagsKept s (andHandler o len s) (flagsWritten .and) :=
    ⟨fun f hf => flagOf_statusAfter hf s.p s.a o.value, bit7_withZN s.p _⟩
  exact ⟨rfl, hflag .z, hflag .n, hkept, rfl, (and_onlyRegs len s o).restKept⟩

/-- Settles O14: the six forms share AND's handler. -/
theorem andMasksTheAccumulator : Obligations.AndMasksTheAccumulator := by
  unfold Obligations.AndMasksTheAccumulator
  intro s
  exact everyReadForm_of_handler (andHandler_effect · · s) (fun _ => rfl) (fun _ => rfl) (fun _ => rfl) (fun _ => rfl)
    (fun _ => rfl) (fun _ => rfl)

/-! CMP (45_bit_cmp_brk.md R171). -/

/-- The Zero rule of a difference is equality. -/
theorem zeroFlag_sub (a m : Byte) : zeroFlag (a - m) = decide (a = m) :=
  decide_eq_decide.mpr sub_eq_zero

/-- A difference of bytes is that of their numbers, mod 256. -/
theorem byte_sub_eq_ofInt (a m : Byte) : a - m = BitVec.ofInt 8 (a.toNat - m.toNat) := by
  apply BitVec.eq_of_toNat_eq
  rw [BitVec.toNat_sub, BitVec.toNat_ofInt]
  omega

/-- The handler of CMP has CMP's effect, for every operand and length. -/
theorem cmpHandler_effect (o : Operand) (len : Nat) (s : State) :
    CmpEffect s o.value len (cmpHandler o len s) := by
  have hflag := flagOf_cmpStatus s.p s.a o.value
  have hkept : FlagsKept s (cmpHandler o len s) (flagsWritten .cmp) :=
    ⟨fun f hf => flagOf_statusAfter hf s.p s.a o.value, bit7_cmpStatus s.p s.a o.value⟩
  have hn : negativeFlag (s.a - o.value) = (BitVec.ofInt 8 (s.a.toNat - o.value.toNat)).getLsbD 7 := by
    rw [negativeFlag, byte_sub_eq_ofInt]
  exact ⟨rfl, hflag .c, (hflag .z).trans (zeroFlag_sub s.a o.value), (hflag .n).trans hn, hkept, rfl,
    (cmp_onlyRegs len s o).restKept⟩

/-- Settles O15: the six forms share CMP's handler. -/
theorem cmpComparesUnsigned : Obligations.CmpComparesUnsigned := by
  unfold Obligations.CmpComparesUnsigned
  intro s
  exact everyReadForm_of_handler (cmpHandler_effect · · s) (fun _ => rfl) (fun _ => rfl) (fun _ => rfl) (fun _ => rfl)
    (fun _ => rfl) (fun _ => rfl)

/-! BIT (45_bit_cmp_brk.md R170). -/

/-- The handler of BIT has BIT's effect, for every operand and length. -/
theorem bitHandler_effect (o : Operand) (len : Nat) (s : State) :
    BitEffect s o.value len (bitHandler o len s) := by
  have hflag := flagOf_bitStatus s.p s.a o.value
  have hsub : flagsWritten .bit ⊆ [.z, .n, .v] := by decide
  have hkept : FlagsKept s (bitHandler o len s) [.z, .n, .v] :=
    ⟨fun f hf => flagOf_statusAfter (mt (@hsub f) hf) s.p s.a o.value, bit7_bitStatus s.p s.a o.value⟩
  exact ⟨rfl, hflag .z, hflag .n, hflag .v, hkept, rfl, (bit_onlyRegs len s o).restKept⟩

/-- Settles O16: both forms read their operand and share BIT's handler. -/
theorem bitTestsTheOperand : Obligations.BitTestsTheOperand := by
  unfold Obligations.BitTestsTheOperand
  intro s
  exact ⟨fun _ _ => withOperand_next_effect (effect := (BitEffect s · 2)) (bitHandler_effect · 2 s),
    fun _ _ => withOperand_next_effect (effect := (BitEffect s · 3)) (bitHandler_effect · 3 s)⟩

end Sys2Proof.Machine

/-! PROOFS. The statement about ASL on memory, of 42_asl.md. -/

namespace Sys2Proof.Machine

open Sys2Proof.Claims

/-- The handler of ASL on a mapped address has ASL's effect there: it changes the devices by one write, p and pc. -/
theorem aslHandler_mem_effect {s : State} {ea : Addr} {m : Byte} (len : Nat) (hm : s.byteAt ea = some m) :
    AslMemoryEffect s ea m len (aslHandler { loc := .mem ea, value := m, extra := 0 } len s) := by
  have hmapped : (s.byteAt ea).isSome = true := Option.isSome_of_eq_some hm
  obtain ⟨ds, hds, hwrite⟩ := State.memWrite_of_mapped (aslResult m) hmapped
  rw [aslHandler_mem_eq, hwrite]
  exact ⟨busRead_busWrite_self hds, fun w hw => busRead_busWrite_ne hds hw, aslFlags_of_aslStatus rfl, rfl,
    rfl, rfl, rfl, rfl, rfl, rfl, busWrite_layout hds⟩

/-- Settles O18: each form reads its operand and runs ASL's handler on it. -/
theorem aslMemoryDoublesInPlace : Obligations.AslMemoryDoublesInPlace := by
  unfold Obligations.AslMemoryDoublesInPlace
  intro s
  have hmem : ∀ {ea : Addr} {m : Byte} (len : Nat), s.byteAt ea = some m →
      ∃ t, withOperand (resolveAt s ea) (fun o => aslHandler o len s) = .next t ∧ AslMemoryEffect s ea m len t :=
    fun len hm => ⟨_, withOperand_of_some _ hm, aslHandler_mem_effect len hm⟩
  exact ⟨fun _ _ => hmem 2, fun _ _ => hmem 2, fun _ _ => hmem 3, fun _ _ => hmem 3⟩

end Sys2Proof.Machine

/-! PROOFS. The statement about the branches, of 43_branches.md. -/

namespace Sys2Proof.Machine

open Sys2Proof.Claims

/-- The offset as an address increment is its signed value mod 65536 (30_encoding.md R80). -/
theorem signExtendOffset_eq_ofInt (off : Byte) : signExtendOffset off = BitVec.ofInt 16 off.toInt := by
  apply BitVec.eq_of_toInt_eq
  rw [signExtendOffset, BitVec.toInt_signExtend_of_le (by omega), BitVec.toInt_ofInt]
  have := BitVec.le_toInt off
  have := BitVec.toInt_lt (x := off)
  rw [Int.bmod_eq_of_le] <;> omega

/-- Where the branch step goes, on integers mod 65536 (43_branches.md R140). -/
theorem State.branch_pc_eq_ofInt (s : State) (c : Bool) (off : Byte) :
    (s.branch c off).pc = BitVec.ofInt 16 (s.pc.toNat + 2 + if c then off.toInt else 0) := by
  have hpc : BitVec.ofInt 16 (s.pc.toNat : Int) = s.pc := by
    rw [BitVec.ofInt_natCast, BitVec.ofNat_toNat, BitVec.setWidth_eq]
  rw [State.branch_pc, BitVec.ofInt_add, BitVec.ofInt_add, hpc]
  cases c with
  | true => exact congrArg (s.pc + 2#16 + ·) (signExtendOffset_eq_ofInt off)
  | false => exact (BitVec.add_zero (s.pc + 2#16)).symm

/-- The branch step is what the statements call a branch. -/
theorem State.branch_eq_branched (s : State) (c : Bool) (off : Byte) : s.branch c off = branched s c off := by
  rw [State.branch_eq, State.branch_pc_eq_ofInt, branched]

/-- Settles O19: each branch is the branch step on its flag with its polarity. -/
theorem branchesGoByTheirFlag : Obligations.BranchesGoByTheirFlag := by
  unfold Obligations.BranchesGoByTheirFlag
  intro s off
  have h : ∀ c, (Host.Outcome.next (s.branch c off) : Host.Outcome State Fault Refusal) = .next (branched s c off) :=
    fun c => congrArg Host.Outcome.next (s.branch_eq_branched c off)
  exact ⟨h _, h _, h _, h _, h _, h _, h _, h _⟩

end Sys2Proof.Machine

/-! PROOFS. The statements about register results and the index registers, of 10_state.md. -/

namespace Sys2Proof.Machine

open Sys2Proof.Claims

/-! Z and N of a register result (10_state.md R28 to R30). -/

/-- Whether a state's Z and N are those of its accumulator. -/
def ZNOfAccumulator (t : State) : Prop :=
  t.flag .z = decide (t.a = 0) ∧ t.flag .n = t.a.getLsbD 7

theorem adcHandler_zn (o : Operand) (len : Nat) (s : State) : ZNOfAccumulator (adcHandler o len s) :=
  ⟨flagOf_adcStatus s.p s.a o.value .z, flagOf_adcStatus s.p s.a o.value .n⟩

theorem andHandler_zn (o : Operand) (len : Nat) (s : State) : ZNOfAccumulator (andHandler o len s) :=
  ⟨flagOf_withZN s.p (s.a &&& o.value) .z, flagOf_withZN s.p (s.a &&& o.value) .n⟩

/-- An instruction with a register result that goes on leaves Z and N of the accumulator. -/
theorem exec_next_zn {i : Instr} {s t : State} (hi : producesRegister i = true) (h : exec i s = .next t) :
    ZNOfAccumulator t := by
  cases i with
  | adcImm _ => cases h; exact adcHandler_zn _ _ s
  | andImm _ => cases h; exact andHandler_zn _ _ s
  | adcZp _ | adcZpX _ | adcAbs _ | adcAbsX _ | adcAbsY _ =>
    obtain ⟨o, -, rfl⟩ := withOperand_eq_next.mp h
    exact adcHandler_zn o _ s
  | andZp _ | andZpX _ | andAbs _ | andAbsX _ | andAbsY _ =>
    obtain ⟨o, -, rfl⟩ := withOperand_eq_next.mp h
    exact andHandler_zn o _ s
  | aslAcc => cases h; exact ⟨flagOf_aslStatus s.p s.a .z, flagOf_aslStatus s.p s.a .n⟩
  | adcIndX _ | adcIndY _ | andIndX _ | andIndY _ => cases h
  | _ => cases hi

/-- An instruction without a register result that goes on keeps the accumulator. -/
theorem exec_next_a {i : Instr} {s t : State} (hi : producesRegister i = false) (h : exec i s = .next t) :
    t.a = s.a := by
  cases i with
  | cmpImm _ | clc | cld | cli | clv => cases h; rfl
  | cmpZp _ | cmpZpX _ | cmpAbs _ | cmpAbsX _ | cmpAbsY _ | bitZp _ | bitAbs _ =>
    obtain ⟨o, -, rfl⟩ := withOperand_eq_next.mp h
    rfl
  | aslZp _ | aslZpX _ | aslAbs _ | aslAbsX _ =>
    obtain ⟨-, -, -, ds, p, pc, -, -, rfl⟩ := (asl_stored h).devices
    rfl
  | bcc _ | bcs _ | beq _ | bmi _ | bne _ | bpl _ | bvc _ | bvs _ => cases h; exact State.branch_a s _ _
  | cmpIndX _ | cmpIndY _ | brk => cases h
  | _ => cases hi

/-- Settles O23: by whether the instruction has a register result. -/
theorem registerResultsSetZeroAndNegative : Obligations.RegisterResultsSetZeroAndNegative := by
  unfold Obligations.RegisterResultsSetZeroAndNegative
  intro i s t h
  split
  · next hi => exact exec_next_zn hi h
  · next hi => exact exec_next_a (Bool.eq_false_of_not_eq_true hi) h

/-! The index registers at 0 (10_state.md R24). -/

/-- An index of value 0 leaves the effective address of ZeroPage mode as it is unindexed. -/
theorem eaZeroPage_of_index_zero {s : State} {j : Index} (h : s.index j = 0) (z : Byte) :
    eaZeroPage s j z = eaZeroPage s .none z := by
  rw [eaZeroPage, h]
  rfl

/-- An index of value 0 leaves the effective address of Absolute mode as it is unindexed. -/
theorem eaAbsolute_of_index_zero {s : State} {j : Index} (h : s.index j = 0) (b : Addr) :
    eaAbsolute s j b = eaAbsolute s .none b := by
  rw [eaAbsolute, h]
  rfl

/-- Settles O28: an indexed form differs from the unindexed one in its effective address alone, and no step writes x or
y. -/
theorem indexedFormsAreUnindexedFromReset : Obligations.IndexedFormsAreUnindexedFromReset := by
  unfold Obligations.IndexedFormsAreUnindexedFromReset
  constructor
  · intro s z b hx hy
    have same : ∀ {ea ea' : Addr} (k : Operand → State), ea = ea' →
        withOperand (resolveAt s ea) k = withOperand (resolveAt s ea') k := fun k h => h ▸ rfl
    have hzx : eaZeroPage s .x z = eaZeroPage s .none z := eaZeroPage_of_index_zero (j := .x) hx z
    have hax : eaAbsolute s .x b = eaAbsolute s .none b := eaAbsolute_of_index_zero (j := .x) hx b
    have hay : eaAbsolute s .y b = eaAbsolute s .none b := eaAbsolute_of_index_zero (j := .y) hy b
    exact ⟨same _ hzx, same _ hzx, same _ hzx, same _ hzx, same _ hax, same _ hax, same _ hax, same _ hax, same _ hay,
      same _ hay, same _ hay⟩
  · intro n s t hx hy hrun
    have hkept : t.x = s.x ∧ t.y = s.y := by
      refine run_induction (P := fun s t => t.x = s.x ∧ t.y = s.y) (fun _ => ⟨rfl, rfl⟩) ?_ n s t hrun
      intro s t u hstep hrest
      obtain ⟨a, p, pc, ds, rfl⟩ := step_next_frame hstep
      exact hrest
    exact ⟨hkept.1.trans hx, hkept.2.trans hy⟩

end Sys2Proof.Machine

/-! PROOFS. The statements about a device's cells and unrouted writes, of 20_memory.md. -/

namespace Sys2Proof.Machine

open Sys2Proof.Claims

/-- Settles O31: in its range a device reads and writes the cell at address minus base. -/
theorem deviceCellIsAddressMinusBase : Obligations.DeviceCellIsAddressMinusBase := by
  unfold Obligations.DeviceCellIsAddressMinusBase
  intro d w v hlow hhigh
  have hm : d.maps w = true := inRange_iff_maps.mp ⟨hlow, hhigh⟩
  refine ⟨Device.read_of_maps hm, _, Device.write_of_maps v hm, rfl, fun hwf => ⟨Device.wf_write v hm hwf, ?_⟩,
    fun k hk => Memory.read_write_ne d.cells v hk⟩
  have hcells : Memory.wf d.cells = true := (Bool.and_eq_true_iff.mp hwf).1
  exact Memory.read_write_self v hcells

/-- Settles O33: the Bus takes a write exactly where it answers a read. -/
theorem unroutedWriteIsReported : Obligations.UnroutedWriteIsReported := by
  unfold Obligations.UnroutedWriteIsReported
  intro s w v
  refine ⟨fun hnone => State.memWrite_of_unmapped v hnone, fun hmapped => ?_⟩
  obtain ⟨ds, hds, hwrite⟩ := State.memWrite_of_mapped v hmapped
  rw [State.hostWrite, hwrite]
  exact ⟨rfl, busWrite_layout hds, fun u hu => busRead_busWrite_ne hds hu⟩

end Sys2Proof.Machine
